-- ==== Sys2Proof/Config.lean ====
section
/-! DEFINITION. Config.lean: what an implementation fixes when the machine is built.

The one parameter of the spec is the capacity `N` (00_scope R5): the number of memory cells, `2 <= N <= 1000`, with
100 and 250 both admitted and 100 the default. The spec leaves no value free, so there is no opaque constant here.
How `N` is carried by the machine: notes/assumptions/2.md. -/

namespace Sys2Proof

/-- 00_scope R5: the capacities a machine may be built with. -/
abbrev Config.CapacityOk (n : Nat) : Prop := 2 ≤ n ∧ n ≤ 1000

/-- 00_scope R5: "Where a single default is wanted the default is N = 100". -/
def Config.defaultCapacity : Nat := 100

/-- 00_scope R5: the extended configuration the source names beside the default. -/
def Config.extendedCapacity : Nat := 250

end Sys2Proof
end

