-- ==== Sys2Proof/Word.lean ====
section
/-! DEFINITION. Word.lean: the Word, the one unit of storage (00_scope R8), and lines of text.

A Word is a sign and a magnitude of six decimal digits. It is not a bit vector: the machine has no bits
(20_memory R41), and the packed form of 30_encoding R90 is a presentation, computed in Decode.lean. -/

namespace Sys2Proof

/-- 00_scope R8: the sign of a Word. `+000000` and `-000000` are two different Words. -/
inductive Sign where
  | plus
  | minus
deriving DecidableEq, Repr

/-- 00_scope R8: the pair `(s, m)` with `0 <= m <= 999999`; there are exactly 2,000,000 of them. -/
structure Word where
  sign : Sign
  mag : Fin 1000000
deriving DecidableEq, Repr

/-- 00_scope R8: `ZERO = ('+', 0)`, the canonical zero Word `+000000`. -/
def Word.zero : Word := ⟨.plus, 0⟩

/-- 10_state R29: a line of text is an arbitrary finite string of characters. -/
abbrev Text := List Char

end Sys2Proof
end

