-- ==== Sys2Proof/Syntax.lean ====
section
/-! DEFINITION. Syntax.lean: the instructions, one constructor per row of spec/opcode_table.json.

The argument of every constructor is the operand field `digits[2:0]` (30_encoding R73, R77: the decoder answers a name
and an operand, for HALT and NOOP too, which ignore it). It is a plain number; WellFormed.lean says it has three digits.
The sign of the instruction word and, for NOOP, the operation field are not part of an instruction
(30_encoding R74, R77; notes/assumptions/8.md). -/

namespace Sys2Proof

/-- 30_encoding R75: the twelve operations and the NOOP default. -/
inductive Instr where
  | read (a : Nat)
  | write (a : Nat)
  | load (a : Nat)
  | store (a : Nat)
  | add (a : Nat)
  | subtract (a : Nat)
  | multiply (a : Nat)
  | divide (a : Nat)
  | branch (a : Nat)
  | branchneg (a : Nat)
  | branchzero (a : Nat)
  | halt (a : Nat)
  | noop (a : Nat)
deriving DecidableEq, Repr

end Sys2Proof
end

