-- ==== Sys2Proof/WellFormed.lean ====
section
/-! DEFINITION. WellFormed.lean: which instruction terms a Word can stand for.

The one check: the operand field has three decimal digits (30_encoding R70, R73: 0 to 999). -/

namespace Sys2Proof

/-- 30_encoding R73: the operand field is an integer from 0 to 999. -/
def operandOk (a : Nat) : Bool := a ≤ 999

/-- An instruction is well formed when its operand field has three digits. -/
def Instr.wellFormed : Instr → Bool
  | .read a => operandOk a
  | .write a => operandOk a
  | .load a => operandOk a
  | .store a => operandOk a
  | .add a => operandOk a
  | .subtract a => operandOk a
  | .multiply a => operandOk a
  | .divide a => operandOk a
  | .branch a => operandOk a
  | .branchneg a => operandOk a
  | .branchzero a => operandOk a
  | .halt a => operandOk a
  | .noop a => operandOk a

end Sys2Proof
end

