-- ==== Sys2Proof/Decode.lean ====
section
/-! DEFINITION. Decode.lean: the decoder (total on Words), the encoder, and the packed binary form.

The machine decodes the pair `(s, m)` (30_encoding R77). The packed form (R90) is a presentation of a Word in 25 bits,
read here only for the opcode table's numbering; a pattern that is not a Word is rejected by name. -/

namespace Sys2Proof

/-- 00_scope R8, 30_encoding R72: the operation field, the integer value of the three high digits. -/
def Word.opfield (w : Word) : Nat := w.mag.val / 1000

/-- 00_scope R8, 30_encoding R73: the operand field, the integer value of the three low digits. -/
def Word.operand (w : Word) : Nat := w.mag.val % 1000

/-- 30_encoding R77: the case on the operation field; every value but the twelve codes is NOOP. -/
def decodeFields (f a : Nat) : Instr :=
  match f with
  | 10 => .read a
  | 11 => .write a
  | 20 => .load a
  | 21 => .store a
  | 30 => .add a
  | 31 => .subtract a
  | 32 => .multiply a
  | 33 => .divide a
  | 40 => .branch a
  | 41 => .branchneg a
  | 42 => .branchzero a
  | 43 => .halt a
  | _ => .noop a

/-- 30_encoding R77: `Decode(w)`, total on Words. The sign is not consulted (R74). -/
def decode (w : Word) : Instr := decodeFields w.opfield w.operand

/-- 30_encoding R75: the operation field of each instruction; NOOP is written with field 000. -/
def Instr.opfield : Instr → Nat
  | .read _ => 10
  | .write _ => 11
  | .load _ => 20
  | .store _ => 21
  | .add _ => 30
  | .subtract _ => 31
  | .multiply _ => 32
  | .divide _ => 33
  | .branch _ => 40
  | .branchneg _ => 41
  | .branchzero _ => 42
  | .halt _ => 43
  | .noop _ => 0

/-- 30_encoding R73: the operand field of each instruction. -/
def Instr.operand : Instr → Nat
  | .read a => a
  | .write a => a
  | .load a => a
  | .store a => a
  | .add a => a
  | .subtract a => a
  | .multiply a => a
  | .divide a => a
  | .branch a => a
  | .branchneg a => a
  | .branchzero a => a
  | .halt a => a
  | .noop a => a

/-- 30_encoding R77: `Name`, one of thirteen strings. -/
def Instr.name : Instr → String
  | .read _ => "READ"
  | .write _ => "WRITE"
  | .load _ => "LOAD"
  | .store _ => "STORE"
  | .add _ => "ADD"
  | .subtract _ => "SUBTRACT"
  | .multiply _ => "MULTIPLY"
  | .divide _ => "DIVIDE"
  | .branch _ => "BRANCH"
  | .branchneg _ => "BRANCHNEG"
  | .branchzero _ => "BRANCHZERO"
  | .halt _ => "HALT"
  | .noop _ => "NOOP"

/-- 30_encoding R84: the operation fields of the twelve instructions. -/
def knownCodes : List Nat := [10, 11, 20, 21, 30, 31, 32, 33, 40, 41, 42, 43]

/-- 30_encoding R70: the Word of an instruction with a given sign, `m = 1000 * opfield + operand`.
For a well-formed instruction the magnitude has six digits. -/
def encodeSigned (sg : Sign) (i : Instr) : Word := ⟨sg, Fin.ofNat 1000000 (1000 * i.opfield + i.operand)⟩

/-- The encoder: the positive Word of an instruction (all of the source's instruction words are positive, R74). -/
def encode (i : Instr) : Word := encodeSigned .plus i

/-! The packed binary form. -/

/-- Why a pattern of bits is not a Word. -/
inductive DecodeError where
  /-- 30_encoding R90: a nibble of 10 to 15. -/
  | nibbleAboveNine
  /-- 30_encoding R90: the packed form has 25 bits; a bit above bit 24 is set. -/
  | bitAboveSign
deriving DecidableEq, Repr

/-- 30_encoding R90: the low `n` decimal digits of `m` in 8-4-2-1 binary-coded decimal. -/
def bcdOf : Nat → Nat → Nat
  | 0, _ => 0
  | n + 1, m => m % 10 + 16 * bcdOf n (m / 10)

/-- 30_encoding R90: the number that `n` nibbles spell, absent if a nibble is above nine. -/
def ofBcd : Nat → Nat → Option Nat
  | 0, _ => some 0
  | n + 1, p => if p % 16 < 10 then (ofBcd n (p / 16)).map (fun r => p % 16 + 10 * r) else none

/-- 30_encoding R90: bit 24, 0 for plus and 1 for minus. -/
def signBit : Sign → Nat
  | .plus => 0
  | .minus => 1

/-- 30_encoding R90: the sign that bit 24 holds. -/
def signOfBit (b : Nat) : Sign := if b = 0 then .plus else .minus

/-- 30_encoding R90: the 25-bit packed form of a Word. -/
def pack (w : Word) : BitVec 25 := BitVec.ofNat 25 (2 ^ 24 * signBit w.sign + bcdOf 6 w.mag.val)

/-- 30_encoding R90: the Word a packed pattern holds; a pattern with a nibble above nine is not a Word. -/
def unpack (p : BitVec 25) : Except DecodeError Word :=
  match ofBcd 6 (p.toNat % 2 ^ 24) with
  | none => .error .nibbleAboveNine
  | some m => .ok ⟨signOfBit (p.toNat / 2 ^ 24), Fin.ofNat 1000000 m⟩

/-- The instruction of a packed pattern, or the name of what is wrong with the pattern. -/
def decodePacked (p : BitVec 25) : Except DecodeError Instr := (unpack p).map decode

/-- The Word whose packed form, as a number, is `w`. -/
def wordOfBits (w : Nat) : Except DecodeError Word :=
  if w < 2 ^ 25 then unpack (BitVec.ofNat 25 w) else .error .bitAboveSign

/-- The decoder on a number of any size: total, rejecting by name. -/
def decodeBits (w : Nat) : Except DecodeError Instr := (wordOfBits w).map decode

/-- The instruction the decoder reads from a word numbered as spec/opcode_table.json numbers it; every bit from
`nbits` up is 0 (notes/assumptions/9.md). -/
def decodeTableWord (nbits w : Nat) : Option Instr :=
  match decodeBits (w % 2 ^ nbits) with
  | .ok i => some i
  | .error _ => none

/-- One row of the opcode table in the packed form: the row applies to `p` when `p AND mask = pattern`. -/
structure OpRow where
  name : String
  pattern : BitVec 25
  mask : BitVec 25
deriving DecidableEq, Repr

/-- 30_encoding R91: the twelve rows, in the table's order; NOOP is the default when none applies. -/
def opRows : List OpRow :=
  [⟨"READ", 0x0010000, 0x0FFF000⟩, ⟨"WRITE", 0x0011000, 0x0FFF000⟩, ⟨"LOAD", 0x0020000, 0x0FFF000⟩,
   ⟨"STORE", 0x0021000, 0x0FFF000⟩, ⟨"ADD", 0x0030000, 0x0FFF000⟩, ⟨"SUBTRACT", 0x0031000, 0x0FFF000⟩,
   ⟨"MULTIPLY", 0x0032000, 0x0FFF000⟩, ⟨"DIVIDE", 0x0033000, 0x0FFF000⟩, ⟨"BRANCH", 0x0040000, 0x0FFF000⟩,
   ⟨"BRANCHNEG", 0x0041000, 0x0FFF000⟩, ⟨"BRANCHZERO", 0x0042000, 0x0FFF000⟩, ⟨"HALT", 0x0043000, 0x0FFF000⟩]

/-- 30_encoding R91: a row selects a packed Word. -/
def OpRow.selects (r : OpRow) (p : BitVec 25) : Bool := p &&& r.mask == r.pattern

/-- 30_encoding R91: the name the opcode table gives a packed Word: the row that selects it, else NOOP. -/
def tableName (p : BitVec 25) : String :=
  match opRows.find? (fun r => r.selects p) with
  | some r => r.name
  | none => "NOOP"

end Sys2Proof
end

