-- ==== Sys2Proof/Machine/State.lean ====
section
/-! DEFINITION. State.lean: the state of the machine (10_state.md), the reasons of a stop, and the state after reset.

Every row of 10_state.md's summary table is a field. The model adds none of its own. -/

namespace Sys2Proof.Machine

/-- 60_exceptions R180: the four error kinds. -/
inductive ErrorKind where
  | malformedWord
  | addressOutOfRange
  | typeMismatch
  | divisionByZero
deriving DecidableEq, Repr

/-- 60_exceptions R180: an error kind with the info it records, as `raise K(info)` names it (00_scope R9).
A raise is no stop of the model: inside a step it is latched in `State.fault` (R186), from a host operation it is the
operation's result (R197). -/
inductive Err where
  /-- R181: the rejected text. Raised by the Word constructors, never by a step. -/
  | malformedWord (text : Text)
  /-- R182: the offending address, or for `Clear` the length. -/
  | addressOutOfRange (a : Int)
  /-- R183: reserved; the memory port carries only Words, so nothing in the core raises it. -/
  | typeMismatch
  /-- R184: raised by `Div`. -/
  | divisionByZero
deriving DecidableEq, Repr

/-- 10_state R24: the record `(kind, at, info)` of the fault latch; `addr` is the spec's `at`. -/
structure FaultLatch where
  kind : ErrorKind
  addr : Nat
  info : Option Int
deriving DecidableEq, Repr

/-- 10_state R26: the content of memory, as the cells that do not hold `+000000`, addresses strictly rising.
An unlisted cell reads `+000000` (notes/assumptions/3.md). -/
abbrev Memory := List (Nat × Word)

/-- 10_state R27: the addresses whose `written` bit is true, strictly rising. -/
abbrev Marks := List Nat

/-- The state (10_state.md section 1). -/
structure State where
  /-- `N`, the capacity (00_scope R5): a construction constant that no operation changes (notes/assumptions/2.md). -/
  capacity : Nat
  /-- `acc`, the accumulator (R20). -/
  acc : Word
  /-- `pc`, the program counter (R21). -/
  pc : Nat
  /-- `halted` (R22). -/
  halted : Bool
  /-- `waiting`, the input-wait flag (R23). -/
  waiting : Bool
  /-- `fault`, the fault latch (R24). -/
  fault : Option FaultLatch
  /-- `mem` (R26). -/
  mem : Memory
  /-- `written` (R27). -/
  written : Marks
  /-- `in`, the input stream: the lines supplied and not yet consumed, next line first (R29). -/
  input : List Text
  /-- `out`, the output stream, oldest first (R30). -/
  output : List Word
  /-- `errlog`, the diagnostic stream, oldest first (R31). -/
  errlog : List Text
deriving DecidableEq, Repr

/-- Why a step would stop with a fault of the model. There is no such reason on this hardware: every error of the spec
is latched in `State.fault` (60_exceptions R186) and the machine goes on to a next state, and every address, Word and
instruction has a defined effect (30_encoding R76). The type has no constructor, so no meaning can end in a fault
(notes/assumptions/1.md). -/
inductive Fault where
deriving DecidableEq, Repr

/-- Why an instruction would be refused. -/
inductive Refusal where
  /-- Raised only by an arm of `exec` whose instruction has no meaning yet (safe: nothing is claimed of it).
  Every instruction has its meaning, so nothing raises it. -/
  | notModelled (mnemonic : String)
deriving DecidableEq, Repr

/-- What a step answers. -/
abbrev Result := Host.Outcome State Fault Refusal

/-- 10_state R36, 70_reset_and_hazards R211: the power-on state of a machine built with capacity `n`.
`waiting` and `fault` are the spec's decisions D13 and D10; `input` is what the host has supplied so far, nothing
(notes/assumptions/6.md). -/
def State.powerOn (n : Nat) : State where
  capacity := n
  acc := Word.zero
  pc := 0
  halted := false
  waiting := false
  fault := none
  mem := []
  written := []
  input := []
  output := []
  errlog := []

/-- The machine right after power-on, with the default capacity 100 (00_scope R5). -/
def State.reset : State := State.powerOn Config.defaultCapacity

end Sys2Proof.Machine
end

