-- ==== Sys2Proof/Machine/Alu.lean ====
section
/-! DEFINITION. Alu.lean: the word ALU (40_word_arithmetic.md), a pure function block.

Every operation converts both operands to integers, computes the exact result and makes a Word by `Trunc` (R100). -/

namespace Sys2Proof.Machine

/-- 00_scope R8, 40_word_arithmetic R101: `val(w)`, the numeric value of a Word. -/
def wordVal (w : Word) : Int :=
  match w.sign with
  | .plus => (w.mag.val : Int)
  | .minus => -(w.mag.val : Int)

/-- 40_word_arithmetic R103: the sign of an exact integer result. -/
def signOf (r : Int) : Sign := if r < 0 then .minus else .plus

/-- 40_word_arithmetic R102: `FromInt(r)` for `-999999 <= r <= 999999`; zero is `+000000` (decision D5). -/
def fromInt (r : Int) : Word := ⟨signOf r, Fin.ofNat 1000000 r.natAbs⟩

/-- 40_word_arithmetic R103: `Trunc(r)`, the overflow policy: the last six digits of the absolute value, with the sign
of the exact result (also when those digits are all zero, R105, decision D4). -/
def trunc (r : Int) : Word :=
  if r.natAbs ≤ 999999 then fromInt r else ⟨signOf r, Fin.ofNat 1000000 (r.natAbs % 1000000)⟩

/-- 40_word_arithmetic R107: `Add(a, b)`. -/
def aluAdd (a b : Word) : Word := trunc (wordVal a + wordVal b)

/-- 40_word_arithmetic R108: `Sub(a, b)`, minuend `a`. -/
def aluSub (a b : Word) : Word := trunc (wordVal a - wordVal b)

/-- 40_word_arithmetic R109: `Mul(a, b)`. -/
def aluMul (a b : Word) : Word := trunc (wordVal a * wordVal b)

/-- 40_word_arithmetic R111: `Div(a, b)`, floor quotient (decision D6); a divisor of value 0 raises. -/
def aluDiv (a b : Word) : Except Err Word :=
  if wordVal b = 0 then .error .divisionByZero else .ok (trunc (Int.fdiv (wordVal a) (wordVal b)))

/-- 40_word_arithmetic R110: `Eq(a, b)`, equality by numeric value. -/
def wordEq (a b : Word) : Bool := wordVal a == wordVal b

/-- 40_word_arithmetic R110: `Lt(a, b)`, order by numeric value. -/
def wordLt (a b : Word) : Bool := decide (wordVal a < wordVal b)

/-- 40_word_arithmetic R110: "likewise the other orders". -/
def wordLe (a b : Word) : Bool := decide (wordVal a ≤ wordVal b)

end Sys2Proof.Machine
end

