-- ==== Sys2Proof/Machine/Text.lean ====
section
/-! DEFINITION. Text.lean: the text forms of a Word: the parser, the four-digit upconversion, the canonical form, the
disassembly and the integer constructor (30_encoding.md sections 3 to 5). -/

namespace Sys2Proof.Machine

/-- 30_encoding R81: the characters `Trim` removes: space, and tab, line feed, vertical tab, form feed, carriage return
(0x09 to 0x0D; decision D18). -/
def isBlankChar (c : Char) : Bool := c.toNat == 0x20 || (0x09 ≤ c.toNat && c.toNat ≤ 0x0D)

/-- 30_encoding R81: `Trim(text)`, leading and trailing whitespace only. -/
def trimText (t : Text) : Text := ((t.dropWhile isBlankChar).reverse.dropWhile isBlankChar).reverse

/-- 30_encoding R81: the digits are exactly ASCII `0` to `9`. -/
def isDigitChar (c : Char) : Bool := 0x30 ≤ c.toNat && c.toNat ≤ 0x39

/-- The number an ASCII digit stands for. -/
def digitValue (c : Char) : Nat := c.toNat - 0x30

/-- 30_encoding R80: the decimal value of a body of digits, most significant first. -/
def decimalValue (t : Text) : Nat := t.foldl (fun n c => 10 * n + digitValue c) 0

/-- 30_encoding R80: the sign and the body of trimmed text; without a leading sign, plus is assumed. -/
def splitSign (t : Text) : Sign × Text :=
  match t with
  | '+' :: body => (.plus, body)
  | '-' :: body => (.minus, body)
  | body => (.plus, body)

/-- 30_encoding R84: `Upconvert` of a four-character body: with a known operation code both two-digit fields are
widened, otherwise the four digits become the low four of six. -/
def upconvert (b0 b1 b2 b3 : Char) : Text :=
  if knownCodes.contains (10 * digitValue b0 + digitValue b1) then ['0', b0, b1, '0', b2, b3]
  else ['0', '0', b0, b1, b2, b3]

/-- 30_encoding R80, R84: the body after upconversion; absent for a four-character body with a non-digit. -/
def widenBody (body : Text) : Option Text :=
  match body with
  | [b0, b1, b2, b3] => if body.all isDigitChar then some (upconvert b0 b1 b2 b3) else none
  | _ => some body

/-- 30_encoding R80: `ParseWord(text)`; absent is the verdict `Malformed`. -/
def parseWord (text : Text) : Option Word :=
  let (s, body) := splitSign (trimText text)
  match widenBody body with
  | none => none
  | some wide =>
    if wide.length = 6 && wide.all isDigitChar then some ⟨s, Fin.ofNat 1000000 (decimalValue wide)⟩ else none

/-- 30_encoding R80: `ParseWord` as the Word constructor: the verdict is then the error kind `MalformedWord`. -/
def wordOfText (text : Text) : Except Err Word :=
  match parseWord text with
  | some w => .ok w
  | none => .error (.malformedWord text)

/-- The ASCII digit of a number below ten. -/
def digitChar (d : Nat) : Char := Char.ofNat (0x30 + d % 10)

/-- The character of a sign. -/
def signChar : Sign → Char
  | .plus => '+'
  | .minus => '-'

/-- 30_encoding R73: the operand field "kept as a zero-padded 3-character string". -/
def threeDigits (n : Nat) : Text := [digitChar (n / 100), digitChar (n / 10), digitChar n]

/-- 30_encoding R78: `raw(w)`, the canonical text form: the sign and exactly six digits. -/
def rawForm (w : Word) : Text := signChar w.sign :: (threeDigits w.opfield ++ threeDigits w.operand)

/-- 30_encoding R89: `Human(w)`: the name, one space and the operand as three digits; `NOOP` alone for a data word. -/
def humanForm (w : Word) : Text :=
  match decode w with
  | .noop _ => "NOOP".toList
  | i => i.name.toList ++ ' ' :: threeDigits w.operand

/-- 30_encoding R83: the signed zero-padded text of an integer, six digits or as many as it needs (DESIGN CHOICE:
the text of an integer of more than six digits, notes/assumptions/24.md). -/
def integerText (r : Int) : Text :=
  if r.natAbs ≤ 999999 then rawForm (fromInt r) else signChar (signOf r) :: Nat.toDigits 10 r.natAbs

/-- 30_encoding R83: `FromInteger(i)`; an integer never goes through the four-digit upconversion. -/
def fromInteger (r : Int) : Except Err Word :=
  if r.natAbs ≤ 999999 then .ok (fromInt r) else .error (.malformedWord (integerText r))

end Sys2Proof.Machine
end

