-- ==== Sys2Proof/Machine/Ops.lean ====
section
/-! DEFINITION. Ops.lean: the named operations over memory, registers and streams, the entry into a fault, and the
CPU reset that leaves one. Every meaning and every host operation is built from these. -/

namespace Sys2Proof.Machine

/-! Memory as a list of cells (10_state R26, 20_memory R40). -/

/-- 20_memory R47: the Word in a cell; a cell that is not listed holds `+000000`. -/
def Memory.read : Memory → Nat → Word
  | [], _ => Word.zero
  | (b, w) :: m, a => if b = a then w else Memory.read m a

/-- Take a cell out of the list, so that it reads `+000000`. -/
def Memory.erase (m : Memory) (a : Nat) : Memory := m.filter (fun c => c.1 != a)

/-- Put a cell before the first one with a larger address. -/
def Memory.insert : Memory → Nat → Word → Memory
  | [], a, w => [(a, w)]
  | (b, v) :: m, a, w => if a < b then (a, w) :: (b, v) :: m else (b, v) :: Memory.insert m a w

/-- 20_memory R48: overwrite a cell, keeping the canonical form: a cell that becomes `+000000` is not listed. -/
def Memory.write (m : Memory) (a : Nat) (w : Word) : Memory :=
  if w = Word.zero then m.erase a else (m.erase a).insert a w

/-- The canonical form of memory: addresses strictly rising, no cell that an unlisted address already reads as. -/
abbrev Memory.wf (m : Memory) : Prop :=
  m.Pairwise (fun c d => c.1 < d.1) ∧ ∀ c ∈ m, c.2 ≠ Word.zero

/-- 10_state R27: set the `written` bit of a cell, whatever the value written. -/
def Marks.mark : Marks → Nat → Marks
  | [], a => [a]
  | b :: l, a => if a < b then a :: b :: l else if a = b then b :: l else b :: Marks.mark l a

/-- The canonical form of the `written` bits: addresses strictly rising. -/
abbrev Marks.wf (l : Marks) : Prop := l.Pairwise (fun a b => a < b)

/-- 10_state R27: `cursor`, one past the highest written address, 0 when none is written. -/
def Marks.cursor (l : Marks) : Nat := l.foldr (fun a c => max (a + 1) c) 0

/-! The error kinds (60_exceptions R180). -/

/-- 60_exceptions R180: the numeric code of a kind (decision D11). -/
def ErrorKind.code : ErrorKind → Nat
  | .malformedWord => 1
  | .addressOutOfRange => 2
  | .typeMismatch => 3
  | .divisionByZero => 4

/-- 60_exceptions R180: the kind of an error. -/
def Err.kind : Err → ErrorKind
  | .malformedWord _ => .malformedWord
  | .addressOutOfRange _ => .addressOutOfRange
  | .typeMismatch => .typeMismatch
  | .divisionByZero => .divisionByZero

/-- 10_state R24: what the latch keeps as `info`: the offending address of `AddressOutOfRange`, absent otherwise. -/
def Err.info : Err → Option Int
  | .addressOutOfRange a => some a
  | .malformedWord _ => none
  | .typeMismatch => none
  | .divisionByZero => none

/-! Named updates of the state, one for each thing an instruction does. -/

/-- Write the accumulator (10_state R20). -/
def State.setAcc (s : State) (w : Word) : State := { s with acc := w }

/-- The change a memory write makes: the cell and its `written` bit (20_memory R43, R48). -/
def State.putWord (s : State) (a : Nat) (w : Word) : State :=
  { s with mem := s.mem.write a w, written := s.written.mark a }

/-- The change an accepted `SetPC` makes: `pc`, and `halted` at the sentinel `N-1` (41_sequencer R120). -/
def State.jump (s : State) (a : Nat) : State :=
  { s with pc := a, halted := s.halted || decide (a + 1 = s.capacity) }

/-- Set `halted` (10_state R22). -/
def State.setHalted (s : State) : State := { s with halted := true }

/-- 10_state R30: `OutEmit(w)`. -/
def State.outEmit (s : State) (w : Word) : State := { s with output := s.output ++ [w] }

/-- Set the input-wait flag (10_state R23). -/
def State.setWaiting (s : State) (b : Bool) : State := { s with waiting := b }

/-- 60_exceptions R186: TAKING A FAULT: the latch keeps the kind, the address of the instruction and the info;
`waiting` becomes false; nothing else changes and no handler is entered. `pc` is still the address `k` of the
instruction, since only a `SetPC` that did not raise changes it. -/
def State.raise (s : State) (e : Err) : State :=
  { s with fault := some ⟨e.kind, s.pc, e.info⟩, waiting := false }

/-- 70_reset_and_hazards R210: `Reset()`, the only way out of a fault or a halt (60_exceptions R189: there is no return
from one). Memory and the streams are untouched. -/
def State.cpuReset (s : State) : State :=
  { s with acc := Word.zero, pc := 0, halted := false, waiting := false, fault := none }

/-! The checked operations. -/

/-- 20_memory R46: `InRange(a)`. -/
def State.inRange (s : State) (a : Int) : Bool := decide (0 ≤ a ∧ a < (s.capacity : Int))

/-- 20_memory R47: `MemRead(a, 1)`. -/
def State.memRead (s : State) (a : Int) : Except Err Word :=
  if s.inRange a then .ok (s.mem.read a.toNat) else .error (.addressOutOfRange a)

/-- 20_memory R48: `MemWrite(a, 1, w)`. -/
def State.memWrite (s : State) (a : Int) (w : Word) : Except Err State :=
  if s.inRange a then .ok (s.putWord a.toNat w) else .error (.addressOutOfRange a)

/-- 41_sequencer R120: `SetPC(v)`, the only way `pc` changes. -/
def State.setPc (s : State) (v : Int) : Except Err State :=
  if v < 0 ∨ v ≥ (s.capacity : Int) then .error (.addressOutOfRange v) else .ok (s.jump v.toNat)

/-- 41_sequencer R122: the outcome of an operation inside a step: its state, or the fault entry. -/
def State.settle (s : State) (r : Except Err State) : State :=
  match r with
  | .ok t => t
  | .error e => s.raise e

/-- 41_sequencer R124: the advance at the end of a step that did not branch. -/
def State.advance (s : State) : State := s.settle (s.setPc ((s.pc : Int) + 1))

/-- 41_sequencer R121: the fetch. -/
def State.fetch (s : State) : Except Err Word := s.memRead (s.pc : Int)

/-- 41_sequencer R122: the guard `halted or pc out of range` at the start of a step. -/
def State.finished (s : State) : Bool := s.halted || !s.inRange (s.pc : Int)

/-! The input stream (10_state R29, 42_io R140). -/

/-- What READ's loop does to the input stream: the lines it rejects, the Word it obtains (absent if the lines run out),
and the lines it leaves. -/
structure InputScan where
  rejected : List Text
  word : Option Word
  rest : List Text
deriving DecidableEq, Repr

/-- 42_io R140: the loop of READ: take lines from the front until one parses as a Word. -/
def scanInput : List Text → InputScan
  | [] => ⟨[], none, []⟩
  | line :: rest =>
    match parseWord line with
    | some w => ⟨[], some w, rest⟩
    | none => let r := scanInput rest; ⟨line :: r.rejected, r.word, r.rest⟩

/-- 42_io R140: the state after READ's loop has gone as far as the input allows: the lines taken are consumed, each
rejected one is an entry of `errlog` (10_state R31), and `waiting` is still true. -/
def State.consumeInput (s : State) (r : InputScan) : State :=
  { s with waiting := true, input := r.rest, errlog := s.errlog ++ r.rejected }

/-- Put a Word where the next instruction is fetched, as the host's `Write(pc, w)` does (20_memory R50). -/
def State.placeAtPc (s : State) (w : Word) : State := s.putWord s.pc w

end Sys2Proof.Machine
end

