-- ==== Sys2Proof/Machine/Operands.lean ====
section
/-! DEFINITION. Operands.lean: the one addressing mode, absolute (20_memory R49), and the three ways an instruction ends.

READ, WRITE, LOAD, STORE and the arithmetic use the operand as a memory address, the branches as a value for `pc`,
HALT and NOOP ignore it (30_encoding R73). -/

namespace Sys2Proof.Machine

/-- 20_memory R49: `ea = operand(w)`: no base, no index, no scaling, no indirection, no sign. -/
def effectiveAddress (a : Nat) : Int := (a : Int)

/-- An instruction that reads the Word its operand names and goes on with it, or faults. -/
def State.withOperand (s : State) (a : Nat) (f : Word → State) : State :=
  match s.memRead (effectiveAddress a) with
  | .error e => s.raise e
  | .ok v => f v

/-- An instruction that ends by writing the accumulator: the new Word and the advance, or the fault of computing it. -/
def State.accResult (s : State) (r : Except Err Word) : State :=
  match r with
  | .error e => s.raise e
  | .ok w => (s.setAcc w).advance

/-- An instruction that ends by writing a Word to the cell its operand names, then the advance, or faults. -/
def State.storeResult (s : State) (a : Nat) (w : Word) : State :=
  match s.memWrite (effectiveAddress a) w with
  | .error e => s.raise e
  | .ok t => t.advance

/-- 45_control R170: a taken branch: `SetPC(a)`, and no advance after it (41_sequencer R124). -/
def State.branchTo (s : State) (a : Nat) : State := s.settle (s.setPc (effectiveAddress a))

end Sys2Proof.Machine
end

