-- ==== Sys2Proof/Machine/Arithmetic.lean ====
section
/-! DEFINITION. Arithmetic.lean: ADD, SUBTRACT, MULTIPLY, DIVIDE (44_arithmetic.md). The accumulator is always the left
operand and the memory Word the right one. -/

namespace Sys2Proof.Machine

/-- 44_arithmetic R160: ADD. -/
def execAdd (a : Nat) (s : State) : Result := .next (s.withOperand a fun v => s.accResult (.ok (aluAdd s.acc v)))

/-- 44_arithmetic R161: SUBTRACT, `acc - mem[a]`. -/
def execSubtract (a : Nat) (s : State) : Result := .next (s.withOperand a fun v => s.accResult (.ok (aluSub s.acc v)))

/-- 44_arithmetic R162: MULTIPLY. -/
def execMultiply (a : Nat) (s : State) : Result := .next (s.withOperand a fun v => s.accResult (.ok (aluMul s.acc v)))

/-- 44_arithmetic R163: DIVIDE. The address is checked before the divisor is seen (60_exceptions R188). -/
def execDivide (a : Nat) (s : State) : Result := .next (s.withOperand a fun v => s.accResult (aluDiv s.acc v))

end Sys2Proof.Machine
end

