-- ==== Sys2Proof/Machine/Flags.lean ====
section
/-! DEFINITION. Flags.lean: the conditions the branches test.

The machine has no condition-code register and no instruction sets a flag (10_state R25, 40_word_arithmetic R106):
BRANCHNEG and BRANCHZERO test `acc` itself, with these two comparisons of the ALU. -/

namespace Sys2Proof.Machine

/-- 40_word_arithmetic R110: `IsNeg(a)`, true exactly when the numeric value is below 0; false for `-000000`. -/
def isNeg (w : Word) : Bool := decide (wordVal w < 0)

/-- 40_word_arithmetic R110: `IsZero(a)`, true exactly when the numeric value is 0; true for `-000000`. -/
def isZero (w : Word) : Bool := decide (wordVal w = 0)

end Sys2Proof.Machine
end

