-- ==== Sys2Proof/Machine/Control.lean ====
section
/-! DEFINITION. Control.lean: BRANCH, BRANCHNEG, BRANCHZERO, HALT and the NOOP default (45_control.md). -/

namespace Sys2Proof.Machine

/-- 45_control R170: BRANCH. -/
def execBranch (a : Nat) (s : State) : Result := .next (s.branchTo a)

/-- 45_control R171: BRANCHNEG; not taken, it falls through to the advance and its operand is not used. -/
def execBranchneg (a : Nat) (s : State) : Result := .next (if isNeg s.acc then s.branchTo a else s.advance)

/-- 45_control R172: BRANCHZERO. -/
def execBranchzero (a : Nat) (s : State) : Result := .next (if isZero s.acc then s.branchTo a else s.advance)

/-- 45_control R173: HALT; the advance still happens (decision D8). The operand is ignored. -/
def execHalt (_a : Nat) (s : State) : Result := .next s.setHalted.advance

/-- 45_control R174: NOOP: the advance and nothing else. The operand is ignored. -/
def execNoop (_a : Nat) (s : State) : Result := .next s.advance

end Sys2Proof.Machine
end

