-- ==== Sys2Proof/Machine/InputOutput.lean ====
section
/-! DEFINITION. InputOutput.lean: READ and WRITE (42_io.md). -/

namespace Sys2Proof.Machine

/-- 42_io R140: READ. With no line left that parses, the machine is in the input wait (60_exceptions R196): `waiting` is
true, `pc` stays, and the same READ goes on at the next step (notes/assumptions/4.md and 5.md). Otherwise `waiting`
becomes false, then the Word is written, which may raise after the input is consumed. -/
def execRead (a : Nat) (s : State) : Result :=
  let r := scanInput s.input
  let t := s.consumeInput r
  match r.word with
  | none => .next t
  | some w => .next ((t.setWaiting false).storeResult a w)

/-- 42_io R141: WRITE. The read comes before the emission. -/
def execWrite (a : Nat) (s : State) : Result := .next (s.withOperand a fun v => (s.outEmit v).advance)

end Sys2Proof.Machine
end

