-- ==== Sys2Proof/Machine/LoadStore.lean ====
section
/-! DEFINITION. LoadStore.lean: LOAD and STORE (43_load_store.md). Both copy the Word exactly, sign and all digits. -/

namespace Sys2Proof.Machine

/-- 43_load_store R150: LOAD. -/
def execLoad (a : Nat) (s : State) : Result := .next (s.withOperand a fun v => s.accResult (.ok v))

/-- 43_load_store R151: STORE. -/
def execStore (a : Nat) (s : State) : Result := .next (s.storeResult a s.acc)

end Sys2Proof.Machine
end

