-- ==== Sys2Proof/Machine/Dispatch.lean ====
section
/-! DEFINITION. Dispatch.lean: one arm per instruction (41_sequencer R123). -/

namespace Sys2Proof.Machine

def exec (i : Instr) (s : State) : Host.Outcome State Fault Refusal :=
  match i with
  | .read a => Sys2Proof.Machine.execRead a s
  | .write a => Sys2Proof.Machine.execWrite a s
  | .load a => Sys2Proof.Machine.execLoad a s
  | .store a => Sys2Proof.Machine.execStore a s
  | .add a => Sys2Proof.Machine.execAdd a s
  | .subtract a => Sys2Proof.Machine.execSubtract a s
  | .multiply a => Sys2Proof.Machine.execMultiply a s
  | .divide a => Sys2Proof.Machine.execDivide a s
  | .branch a => Sys2Proof.Machine.execBranch a s
  | .branchneg a => Sys2Proof.Machine.execBranchneg a s
  | .branchzero a => Sys2Proof.Machine.execBranchzero a s
  | .halt a => Sys2Proof.Machine.execHalt a s
  | .noop a => Sys2Proof.Machine.execNoop a s

end Sys2Proof.Machine
end

