-- ==== Sys2Proof/Machine/Step.lean ====
section
/-! DEFINITION. Step.lean: one step (41_sequencer R122): guards, fetch, decode, dispatch. The advance of `pc` and the
entry into a fault are part of each meaning. -/

namespace Sys2Proof.Machine

/-- 41_sequencer R122: `Step()`. A faulted machine does nothing; a halted one, or one whose `pc` is out of range, becomes
or stays halted and does nothing else. -/
def step (s : State) : Host.Outcome State Fault Refusal :=
  if s.fault.isSome then .next s
  else if s.finished then .next s.setHalted
  else
    match s.fetch with
    | .error e => .next (s.raise e)
    | .ok w => exec (decode w) s

/-- `s` with the Word whose packed form is `w` (bits from `nbits` up taken as 0) in the cell `step` fetches from, as the
host's `Write(pc, w)` puts it there (notes/assumptions/10.md). A pattern that is not a Word places nothing. -/
def State.withFetchWord (s : State) (nbits w : Nat) : State :=
  match wordOfBits (w % 2 ^ nbits) with
  | .ok x => s.placeAtPc x
  | .error _ => s

end Sys2Proof.Machine
end

