-- ==== Sys2Proof/Machine/HostPort.lean ====
section
/-! DEFINITION. HostPort.lean: the operations the host may issue between steps (10_state R32, R38; 20_memory section 3;
41_sequencer section 4; 60_exceptions section 5; 70_reset_and_hazards R213). None is an instruction (20_memory R57). -/

namespace Sys2Proof.Machine

/-! Building the machine. -/

/-- Why a machine is not built. -/
inductive BuildRefusal where
  /-- 00_scope R5 and 93_implementation_defined V8: a capacity outside `2..1000` is refused at configuration time. -/
  | capacityNotAllowed (n : Nat)
  /-- 10_state R37: the error of the `Clear(seq)` that loads the initial sequence (20_memory R53). -/
  | sequenceNotLoaded (e : Err)
deriving DecidableEq, Repr

/-- 00_scope R5, 70_reset_and_hazards R211: build a machine with capacity `n` in its power-on state. -/
def buildMachine (n : Nat) : Except BuildRefusal State :=
  if Config.CapacityOk n then .ok (State.powerOn n) else .error (.capacityNotAllowed n)

/-! The memory port (20_memory section 3). It carries only Words (10_state R32). An error is the operation's result and
sets no latch (60_exceptions R197). -/

/-- 20_memory R50: `Write(a, w)`. -/
def hostWrite (s : State) (a : Int) (w : Word) : Except Err State := s.memWrite a w

/-- 20_memory R51: `Read(a)`. -/
def hostRead (s : State) (a : Int) : Except Err Word := s.memRead a

/-- 10_state R27: `cursor`. -/
def hostCursor (s : State) : Nat := s.written.cursor

/-- 20_memory R52: `WriteNext(w)`, at the append cursor; "memory full" is the error of the bounds check. -/
def hostWriteNext (s : State) (w : Word) : Except Err State := s.memWrite (hostCursor s : Int) w

/-- 20_memory R53: every cell `+000000` and unwritten. -/
def State.emptyStore (s : State) : State := { s with mem := [], written := [] }

/-- 20_memory R53: a sequence of Words from an address upward. -/
def State.loadFrom (s : State) (i : Nat) : List Word → State
  | [] => s
  | w :: ws => (s.putWord i w).loadFrom (i + 1) ws

/-- 20_memory R53: `Clear(seq)`; too long a sequence is refused before anything changes (decision D17). -/
def hostClear (s : State) (ws : List Word) : Except Err State :=
  if s.capacity < ws.length then .error (.addressOutOfRange (ws.length : Int)) else .ok (s.emptyStore.loadFrom 0 ws)

/-- 20_memory R54: `Len()`, the count of written cells. -/
def hostLen (s : State) : Nat := s.written.length

/-- 10_state R37: a machine whose memory is created from an initial sequence: it is built, with the check of its capacity,
and `Clear(seq)` follows. -/
def powerOnWith (n : Nat) (ws : List Word) : Except BuildRefusal State :=
  match buildMachine n with
  | .error e => .error e
  | .ok s => (hostClear s ws).mapError .sequenceNotLoaded

/-- 70_reset_and_hazards R213: what the loader does to the core: each line through the Word constructor and `WriteNext`;
the first error ends the load, and the lines before it are already written. -/
def loadLines (s : State) : List Text → State × Option Err
  | [] => (s, none)
  | line :: rest =>
    match wordOfText line with
    | .error e => (s, some e)
    | .ok w =>
      match hostWriteNext s w with
      | .error e => (s, some e)
      | .ok t => loadLines t rest

/-- 70_reset_and_hazards R213: the lines the saver writes: the canonical form of every cell from 0 up to the highest one
that does not hold `+000000`. Memory lists exactly the cells that do not. DESIGN CHOICE: a cell that holds `-000000` counts
as one that does not, which 91_not_in_source leaves open (notes/assumptions/28.md). -/
def savedLines (s : State) : List Text :=
  (List.range (Marks.cursor (s.mem.map Prod.fst))).map fun i => rawForm (s.mem.read i)

/-! The diagnostic views (20_memory R55, 60_exceptions R193). -/

/-- 20_memory R55: the number of entries of a window. -/
def previewCount (s : State) (size : Int) : Int := min size (s.capacity : Int)

/-- 20_memory R55: the first address of a window of `n` cells, shifted to stay inside `[0, N)` (decision D16). -/
def previewLow (s : State) (center n : Int) : Int :=
  let lo := center - n / 2
  let lo := if lo < 0 then 0 else lo
  if lo + n > (s.capacity : Int) then (s.capacity : Int) - n else lo

/-- 20_memory R55: `Preview(center, size)`, as the list of address and Word in rising order; no state changes. -/
def hostPreview (s : State) (center size : Int) : List (Nat × Word) :=
  let n := previewCount s size
  if n ≤ 0 then []
  else (List.range n.toNat).map fun i =>
    let a := (previewLow s center n).toNat + i
    (a, s.mem.read a)

/-- One line of the inspection view: the address, the raw form, the disassembly. -/
abbrev ViewLine := Nat × Text × Text

/-- 60_exceptions R193: `CpuPreview(size)`, the window centred on `pc`. -/
def cpuPreview (s : State) (size : Int) : List ViewLine :=
  (hostPreview s (s.pc : Int) size).map fun c => (c.1, rawForm c.2, humanForm c.2)

/-! The control operations. -/

/-- 10_state R29: the host appends a line to `in`. -/
def hostAppend (s : State) (line : Text) : State := { s with input := s.input ++ [line] }

/-- 41_sequencer R131: `Stop()`: between two steps it changes nothing of the state (the loop of `Run` is what it leaves);
during an input wait it abandons the READ, and `waiting` becomes false (decision D14). DESIGN CHOICE: so it does also after
the host has appended a line and before the READ goes on; the line stays in `in` (notes/assumptions/29.md). -/
def hostStop (s : State) : State := s.setWaiting false

/-- Where a run stands when its loop is left. -/
inductive RunStatus where
  /-- 41_sequencer R132: `halted` is set, or `fault` is; the run has ended. -/
  | ended
  /-- 41_sequencer R132: blocked in a READ, `waiting` is true; the run has not ended. -/
  | blocked
  /-- The budget is used up at a step boundary: the run has not ended; a `Stop` leaves the loop so (R131). -/
  | paused
deriving DecidableEq, Repr

/-- The result of a run: where it stands, the state, and the views the trace emitted, oldest first. -/
structure RunResult where
  status : RunStatus
  final : State
  views : List (List ViewLine)
deriving DecidableEq, Repr

/-- 41_sequencer R130: the view emitted before a step when the trace is on (`some TRACE_SIZE`). The view of a READ that
is blocked was emitted before its step began. -/
def traceView (trace : Option Int) (s : State) : List (List ViewLine) :=
  match trace with
  | none => []
  | some size => if s.waiting then [] else [cpuPreview s size]

/-- 41_sequencer R128: the loop of `Run`, under a step budget (R129 d). -/
def runLoop (trace : Option Int) : Nat → State → RunResult
  | 0, s => ⟨if s.halted || s.fault.isSome then .ended else .paused, s, []⟩
  | k + 1, s =>
    if s.halted || s.fault.isSome then ⟨.ended, s, []⟩
    else
      match step s with
      | .next t =>
        if t.waiting then ⟨.blocked, t, traceView trace s⟩
        else
          let r := runLoop trace k t
          ⟨r.status, r.final, traceView trace s ++ r.views⟩
      | .fault _ => ⟨.ended, s, traceView trace s⟩
      | .refused _ => ⟨.ended, s, traceView trace s⟩

/-- 41_sequencer R128: `Run(start, trace)`. A faulted machine does nothing; a start out of range is latched. -/
def hostRun (s : State) (start : Int) (trace : Option Int) (budget : Nat) : RunResult :=
  if s.fault.isSome then ⟨.ended, s, []⟩
  else
    match s.setPc start with
    | .error e => ⟨.ended, s.raise e, []⟩
    | .ok t => runLoop trace budget t

/-- 41_sequencer R128: the start of a `Run` for which the host names none (decision D20). -/
def defaultStart : Int := 0

/-- 41_sequencer R128: the address a `Run` starts from: the one the host names, else the default. -/
def runStart (start : Option Int) : Int := start.getD defaultStart

/-- 41_sequencer R131: a stopped or blocked run goes on from where it is, without a new `SetPC`. -/
def hostResume (s : State) (trace : Option Int) (budget : Nat) : RunResult := runLoop trace budget s

/-- 41_sequencer R122 as an operation of the host: `Step()`. Every step answers a next state. -/
def hostStep (s : State) : State :=
  match step s with
  | .next t => t
  | .fault _ => s
  | .refused _ => s

/-- 10_state R32: the operations of the host that can change the state. -/
inductive HostOp where
  | reset
  | step
  /-- `Run(start, trace)`; `none` for `start` is a `Run` for which the host names none (41_sequencer R128). -/
  | run (start : Option Int) (trace : Option Int) (budget : Nat)
  | resume (trace : Option Int) (budget : Nat)
  | stop
  | write (a : Int) (w : Word)
  | writeNext (w : Word)
  | clear (ws : List Word)
  | append (line : Text)
deriving DecidableEq, Repr

/-- Why an operation of the host has no move. -/
inductive PortRefusal where
  /-- 10_state R38: the operation is one the host is assumed never to issue while a READ is blocked. -/
  | blockedInRead
deriving DecidableEq, Repr

/-- 10_state R38: what the host may issue. While a READ is blocked it may append a line, stop or reset; a step or a
resume is the blocked operation going on. -/
def portPermits (s : State) : HostOp → Bool
  | .reset => true
  | .step => true
  | .resume _ _ => true
  | .stop => true
  | .append _ => true
  | .run _ _ _ => !s.waiting
  | .write _ _ => !s.waiting
  | .writeNext _ => !s.waiting
  | .clear _ => !s.waiting

/-- The result of a memory operation: its state, or the old state and the error for the host (60_exceptions R197). -/
def portResult (s : State) (r : Except Err State) : State × Option Err :=
  match r with
  | .ok t => (t, none)
  | .error e => (s, some e)

/-- The state an operation leaves and the error it returns to the host. -/
def hostEffect (s : State) : HostOp → State × Option Err
  | .reset => (s.cpuReset, none)
  | .step => (hostStep s, none)
  | .run start trace budget => ((hostRun s (runStart start) trace budget).final, none)
  | .resume trace budget => ((hostResume s trace budget).final, none)
  | .stop => (hostStop s, none)
  | .write a w => portResult s (hostWrite s a w)
  | .writeNext w => portResult s (hostWriteNext s w)
  | .clear ws => portResult s (hostClear s ws)
  | .append line => (hostAppend s line, none)

/-- 10_state R32: one operation of the host, or no move where R38 assumes the host never issues it. -/
def hostApply (s : State) (op : HostOp) : Except PortRefusal (State × Option Err) :=
  if portPermits s op then .ok (hostEffect s op) else .error .blockedInRead

end Sys2Proof.Machine
end

