-- ==== Sys2Proof/Safety.lean ====
section
/-! DEFINITION. Safety.lean: the invariant of the machine (10_state R33) and what the end of a run is
(41_sequencer R132), in the terms the statements use. -/

namespace Sys2Proof.Machine

/-- 60_exceptions R186, 10_state R24: what the latch may hold: the kinds a step or `Run` can raise, with the info of
each, and the address where `pc` still stands. -/
def FaultLatch.legal (n pc : Nat) (f : FaultLatch) : Bool :=
  f.addr == pc &&
  match f.kind, f.info with
  | .addressOutOfRange, some a => decide (a < 0 ∨ (n : Int) ≤ a)
  | .divisionByZero, none => true
  | _, _ => false

/-- The latch of a state is empty or legal. -/
def State.latchLegal (s : State) : Bool :=
  match s.fault with
  | none => true
  | some f => f.legal s.capacity s.pc

/-- The instruction the next step would fetch, whatever the guards say. -/
def State.nextInstr (s : State) : Instr := decode (s.mem.read s.pc)

/-- A READ, whatever its operand. -/
def isReadInstr : Instr → Bool
  | .read _ => true
  | _ => false

/-- 10_state R33 (I5): `waiting` is true only inside a READ, on a machine that is neither halted nor faulted. -/
def State.waitLegal (s : State) : Bool :=
  !s.waiting || (isReadInstr s.nextInstr && !s.halted && s.fault.isNone)

/-- 10_state R33: the invariant. I1 and I2 are the second and third clause, I5 the fifth, I6 the last three;
I3 and I4 speak of two states and are statements about a step. -/
abbrev State.Inv (s : State) : Prop :=
  Config.CapacityOk s.capacity ∧ s.pc < s.capacity ∧ (s.pc + 1 = s.capacity → s.halted = true) ∧
  s.latchLegal = true ∧ s.waitLegal = true ∧
  (Memory.wf s.mem ∧ Marks.wf s.written) ∧ (∀ a ∈ s.written, a < s.capacity) ∧ (∀ c ∈ s.mem, c.1 ∈ s.written)

/-- 41_sequencer R132: a run has ended normally. -/
def State.endedNormally (s : State) : Bool := s.halted && s.fault.isNone

/-- 41_sequencer R132: a run has ended abnormally. -/
def State.endedAbnormally (s : State) : Bool := s.fault.isSome

/-- A machine whose next step executes an instruction: no fault, not halted, `pc` in range (41_sequencer R122). -/
def State.running (s : State) : Bool := s.fault.isNone && !s.finished

/-- 60_exceptions R196: a machine in the input wait: it is neither halted nor faulted, its instruction is a READ, and no
line of the input parses as a Word, so that it makes no progress until the host appends one. -/
def State.inputBlocked (s : State) : Bool := s.running && isReadInstr s.nextInstr && (scanInput s.input).word.isNone

end Sys2Proof.Machine
end

