-- ==== Sys2Proof/Laws/State.lean ====
section
/-! SUPPORT. State.lean: each field after each named update of the state. -/

namespace Sys2Proof.Machine

/-! `State.setAcc` -/

@[simp] theorem State.setAcc_capacity (s : State) (w : Word) : (s.setAcc w).capacity = s.capacity := rfl
@[simp] theorem State.setAcc_acc (s : State) (w : Word) : (s.setAcc w).acc = w := rfl
@[simp] theorem State.setAcc_pc (s : State) (w : Word) : (s.setAcc w).pc = s.pc := rfl
@[simp] theorem State.setAcc_halted (s : State) (w : Word) : (s.setAcc w).halted = s.halted := rfl
@[simp] theorem State.setAcc_waiting (s : State) (w : Word) : (s.setAcc w).waiting = s.waiting := rfl
@[simp] theorem State.setAcc_fault (s : State) (w : Word) : (s.setAcc w).fault = s.fault := rfl
@[simp] theorem State.setAcc_mem (s : State) (w : Word) : (s.setAcc w).mem = s.mem := rfl
@[simp] theorem State.setAcc_written (s : State) (w : Word) : (s.setAcc w).written = s.written := rfl
@[simp] theorem State.setAcc_input (s : State) (w : Word) : (s.setAcc w).input = s.input := rfl
@[simp] theorem State.setAcc_output (s : State) (w : Word) : (s.setAcc w).output = s.output := rfl
@[simp] theorem State.setAcc_errlog (s : State) (w : Word) : (s.setAcc w).errlog = s.errlog := rfl

/-! `State.putWord` -/

@[simp] theorem State.putWord_capacity (s : State) (a : Nat) (w : Word) : (s.putWord a w).capacity = s.capacity := rfl
@[simp] theorem State.putWord_acc (s : State) (a : Nat) (w : Word) : (s.putWord a w).acc = s.acc := rfl
@[simp] theorem State.putWord_pc (s : State) (a : Nat) (w : Word) : (s.putWord a w).pc = s.pc := rfl
@[simp] theorem State.putWord_halted (s : State) (a : Nat) (w : Word) : (s.putWord a w).halted = s.halted := rfl
@[simp] theorem State.putWord_waiting (s : State) (a : Nat) (w : Word) : (s.putWord a w).waiting = s.waiting := rfl
@[simp] theorem State.putWord_fault (s : State) (a : Nat) (w : Word) : (s.putWord a w).fault = s.fault := rfl
@[simp] theorem State.putWord_mem (s : State) (a : Nat) (w : Word) : (s.putWord a w).mem = s.mem.write a w := rfl
@[simp] theorem State.putWord_written (s : State) (a : Nat) (w : Word) : (s.putWord a w).written = s.written.mark a := rfl
@[simp] theorem State.putWord_input (s : State) (a : Nat) (w : Word) : (s.putWord a w).input = s.input := rfl
@[simp] theorem State.putWord_output (s : State) (a : Nat) (w : Word) : (s.putWord a w).output = s.output := rfl
@[simp] theorem State.putWord_errlog (s : State) (a : Nat) (w : Word) : (s.putWord a w).errlog = s.errlog := rfl

/-! `State.jump` -/

@[simp] theorem State.jump_capacity (s : State) (a : Nat) : (s.jump a).capacity = s.capacity := rfl
@[simp] theorem State.jump_acc (s : State) (a : Nat) : (s.jump a).acc = s.acc := rfl
@[simp] theorem State.jump_pc (s : State) (a : Nat) : (s.jump a).pc = a := rfl
@[simp] theorem State.jump_halted (s : State) (a : Nat) : (s.jump a).halted = (s.halted || decide (a + 1 = s.capacity)) := rfl
@[simp] theorem State.jump_waiting (s : State) (a : Nat) : (s.jump a).waiting = s.waiting := rfl
@[simp] theorem State.jump_fault (s : State) (a : Nat) : (s.jump a).fault = s.fault := rfl
@[simp] theorem State.jump_mem (s : State) (a : Nat) : (s.jump a).mem = s.mem := rfl
@[simp] theorem State.jump_written (s : State) (a : Nat) : (s.jump a).written = s.written := rfl
@[simp] theorem State.jump_input (s : State) (a : Nat) : (s.jump a).input = s.input := rfl
@[simp] theorem State.jump_output (s : State) (a : Nat) : (s.jump a).output = s.output := rfl
@[simp] theorem State.jump_errlog (s : State) (a : Nat) : (s.jump a).errlog = s.errlog := rfl

/-! `State.setHalted` -/

@[simp] theorem State.setHalted_capacity (s : State) : s.setHalted.capacity = s.capacity := rfl
@[simp] theorem State.setHalted_acc (s : State) : s.setHalted.acc = s.acc := rfl
@[simp] theorem State.setHalted_pc (s : State) : s.setHalted.pc = s.pc := rfl
@[simp] theorem State.setHalted_halted (s : State) : s.setHalted.halted = true := rfl
@[simp] theorem State.setHalted_waiting (s : State) : s.setHalted.waiting = s.waiting := rfl
@[simp] theorem State.setHalted_fault (s : State) : s.setHalted.fault = s.fault := rfl
@[simp] theorem State.setHalted_mem (s : State) : s.setHalted.mem = s.mem := rfl
@[simp] theorem State.setHalted_written (s : State) : s.setHalted.written = s.written := rfl
@[simp] theorem State.setHalted_input (s : State) : s.setHalted.input = s.input := rfl
@[simp] theorem State.setHalted_output (s : State) : s.setHalted.output = s.output := rfl
@[simp] theorem State.setHalted_errlog (s : State) : s.setHalted.errlog = s.errlog := rfl

/-! `State.outEmit` -/

@[simp] theorem State.outEmit_capacity (s : State) (w : Word) : (s.outEmit w).capacity = s.capacity := rfl
@[simp] theorem State.outEmit_acc (s : State) (w : Word) : (s.outEmit w).acc = s.acc := rfl
@[simp] theorem State.outEmit_pc (s : State) (w : Word) : (s.outEmit w).pc = s.pc := rfl
@[simp] theorem State.outEmit_halted (s : State) (w : Word) : (s.outEmit w).halted = s.halted := rfl
@[simp] theorem State.outEmit_waiting (s : State) (w : Word) : (s.outEmit w).waiting = s.waiting := rfl
@[simp] theorem State.outEmit_fault (s : State) (w : Word) : (s.outEmit w).fault = s.fault := rfl
@[simp] theorem State.outEmit_mem (s : State) (w : Word) : (s.outEmit w).mem = s.mem := rfl
@[simp] theorem State.outEmit_written (s : State) (w : Word) : (s.outEmit w).written = s.written := rfl
@[simp] theorem State.outEmit_input (s : State) (w : Word) : (s.outEmit w).input = s.input := rfl
@[simp] theorem State.outEmit_output (s : State) (w : Word) : (s.outEmit w).output = s.output ++ [w] := rfl
@[simp] theorem State.outEmit_errlog (s : State) (w : Word) : (s.outEmit w).errlog = s.errlog := rfl

/-! `State.setWaiting` -/

@[simp] theorem State.setWaiting_capacity (s : State) (b : Bool) : (s.setWaiting b).capacity = s.capacity := rfl
@[simp] theorem State.setWaiting_acc (s : State) (b : Bool) : (s.setWaiting b).acc = s.acc := rfl
@[simp] theorem State.setWaiting_pc (s : State) (b : Bool) : (s.setWaiting b).pc = s.pc := rfl
@[simp] theorem State.setWaiting_halted (s : State) (b : Bool) : (s.setWaiting b).halted = s.halted := rfl
@[simp] theorem State.setWaiting_waiting (s : State) (b : Bool) : (s.setWaiting b).waiting = b := rfl
@[simp] theorem State.setWaiting_fault (s : State) (b : Bool) : (s.setWaiting b).fault = s.fault := rfl
@[simp] theorem State.setWaiting_mem (s : State) (b : Bool) : (s.setWaiting b).mem = s.mem := rfl
@[simp] theorem State.setWaiting_written (s : State) (b : Bool) : (s.setWaiting b).written = s.written := rfl
@[simp] theorem State.setWaiting_input (s : State) (b : Bool) : (s.setWaiting b).input = s.input := rfl
@[simp] theorem State.setWaiting_output (s : State) (b : Bool) : (s.setWaiting b).output = s.output := rfl
@[simp] theorem State.setWaiting_errlog (s : State) (b : Bool) : (s.setWaiting b).errlog = s.errlog := rfl

/-! `State.raise` -/

@[simp] theorem State.raise_capacity (s : State) (e : Err) : (s.raise e).capacity = s.capacity := rfl
@[simp] theorem State.raise_acc (s : State) (e : Err) : (s.raise e).acc = s.acc := rfl
@[simp] theorem State.raise_pc (s : State) (e : Err) : (s.raise e).pc = s.pc := rfl
@[simp] theorem State.raise_halted (s : State) (e : Err) : (s.raise e).halted = s.halted := rfl
@[simp] theorem State.raise_waiting (s : State) (e : Err) : (s.raise e).waiting = false := rfl
@[simp] theorem State.raise_fault (s : State) (e : Err) : (s.raise e).fault = some ⟨e.kind, s.pc, e.info⟩ := rfl
@[simp] theorem State.raise_mem (s : State) (e : Err) : (s.raise e).mem = s.mem := rfl
@[simp] theorem State.raise_written (s : State) (e : Err) : (s.raise e).written = s.written := rfl
@[simp] theorem State.raise_input (s : State) (e : Err) : (s.raise e).input = s.input := rfl
@[simp] theorem State.raise_output (s : State) (e : Err) : (s.raise e).output = s.output := rfl
@[simp] theorem State.raise_errlog (s : State) (e : Err) : (s.raise e).errlog = s.errlog := rfl

/-! `State.cpuReset` -/

@[simp] theorem State.cpuReset_capacity (s : State) : s.cpuReset.capacity = s.capacity := rfl
@[simp] theorem State.cpuReset_acc (s : State) : s.cpuReset.acc = Word.zero := rfl
@[simp] theorem State.cpuReset_pc (s : State) : s.cpuReset.pc = 0 := rfl
@[simp] theorem State.cpuReset_halted (s : State) : s.cpuReset.halted = false := rfl
@[simp] theorem State.cpuReset_waiting (s : State) : s.cpuReset.waiting = false := rfl
@[simp] theorem State.cpuReset_fault (s : State) : s.cpuReset.fault = none := rfl
@[simp] theorem State.cpuReset_mem (s : State) : s.cpuReset.mem = s.mem := rfl
@[simp] theorem State.cpuReset_written (s : State) : s.cpuReset.written = s.written := rfl
@[simp] theorem State.cpuReset_input (s : State) : s.cpuReset.input = s.input := rfl
@[simp] theorem State.cpuReset_output (s : State) : s.cpuReset.output = s.output := rfl
@[simp] theorem State.cpuReset_errlog (s : State) : s.cpuReset.errlog = s.errlog := rfl

/-! `State.consumeInput` -/

@[simp] theorem State.consumeInput_capacity (s : State) (r : InputScan) : (s.consumeInput r).capacity = s.capacity := rfl
@[simp] theorem State.consumeInput_acc (s : State) (r : InputScan) : (s.consumeInput r).acc = s.acc := rfl
@[simp] theorem State.consumeInput_pc (s : State) (r : InputScan) : (s.consumeInput r).pc = s.pc := rfl
@[simp] theorem State.consumeInput_halted (s : State) (r : InputScan) : (s.consumeInput r).halted = s.halted := rfl
@[simp] theorem State.consumeInput_waiting (s : State) (r : InputScan) : (s.consumeInput r).waiting = true := rfl
@[simp] theorem State.consumeInput_fault (s : State) (r : InputScan) : (s.consumeInput r).fault = s.fault := rfl
@[simp] theorem State.consumeInput_mem (s : State) (r : InputScan) : (s.consumeInput r).mem = s.mem := rfl
@[simp] theorem State.consumeInput_written (s : State) (r : InputScan) : (s.consumeInput r).written = s.written := rfl
@[simp] theorem State.consumeInput_input (s : State) (r : InputScan) : (s.consumeInput r).input = r.rest := rfl
@[simp] theorem State.consumeInput_output (s : State) (r : InputScan) : (s.consumeInput r).output = s.output := rfl
@[simp] theorem State.consumeInput_errlog (s : State) (r : InputScan) : (s.consumeInput r).errlog = s.errlog ++ r.rejected := rfl

/-! `State.emptyStore` -/

@[simp] theorem State.emptyStore_capacity (s : State) : s.emptyStore.capacity = s.capacity := rfl
@[simp] theorem State.emptyStore_acc (s : State) : s.emptyStore.acc = s.acc := rfl
@[simp] theorem State.emptyStore_pc (s : State) : s.emptyStore.pc = s.pc := rfl
@[simp] theorem State.emptyStore_halted (s : State) : s.emptyStore.halted = s.halted := rfl
@[simp] theorem State.emptyStore_waiting (s : State) : s.emptyStore.waiting = s.waiting := rfl
@[simp] theorem State.emptyStore_fault (s : State) : s.emptyStore.fault = s.fault := rfl
@[simp] theorem State.emptyStore_mem (s : State) : s.emptyStore.mem = [] := rfl
@[simp] theorem State.emptyStore_written (s : State) : s.emptyStore.written = [] := rfl
@[simp] theorem State.emptyStore_input (s : State) : s.emptyStore.input = s.input := rfl
@[simp] theorem State.emptyStore_output (s : State) : s.emptyStore.output = s.output := rfl
@[simp] theorem State.emptyStore_errlog (s : State) : s.emptyStore.errlog = s.errlog := rfl

/-! `hostAppend` -/

@[simp] theorem hostAppend_capacity (s : State) (line : Text) : (hostAppend s line).capacity = s.capacity := rfl
@[simp] theorem hostAppend_acc (s : State) (line : Text) : (hostAppend s line).acc = s.acc := rfl
@[simp] theorem hostAppend_pc (s : State) (line : Text) : (hostAppend s line).pc = s.pc := rfl
@[simp] theorem hostAppend_halted (s : State) (line : Text) : (hostAppend s line).halted = s.halted := rfl
@[simp] theorem hostAppend_waiting (s : State) (line : Text) : (hostAppend s line).waiting = s.waiting := rfl
@[simp] theorem hostAppend_fault (s : State) (line : Text) : (hostAppend s line).fault = s.fault := rfl
@[simp] theorem hostAppend_mem (s : State) (line : Text) : (hostAppend s line).mem = s.mem := rfl
@[simp] theorem hostAppend_written (s : State) (line : Text) : (hostAppend s line).written = s.written := rfl
@[simp] theorem hostAppend_input (s : State) (line : Text) : (hostAppend s line).input = s.input ++ [line] := rfl
@[simp] theorem hostAppend_output (s : State) (line : Text) : (hostAppend s line).output = s.output := rfl
@[simp] theorem hostAppend_errlog (s : State) (line : Text) : (hostAppend s line).errlog = s.errlog := rfl

end Sys2Proof.Machine
end

