-- ==== Sys2Proof/Laws/Memory.lean ====
section
/-! SUPPORT. Memory.lean: reading after writing, and that every memory operation keeps the canonical form. -/

namespace Sys2Proof.Machine

/-! Reading. -/

@[simp] theorem Memory.read_nil (a : Nat) : Memory.read [] a = Word.zero := rfl

theorem Memory.read_cons (b : Nat) (w : Word) (m : Memory) (a : Nat) :
    Memory.read ((b, w) :: m) a = if b = a then w else m.read a := rfl

theorem Memory.read_of_not_listed (m : Memory) (a : Nat) (h : ∀ c ∈ m, c.1 ≠ a) : m.read a = Word.zero := by
  induction m with
  | nil => rfl
  | cons c m ih =>
    obtain ⟨b, w⟩ := c
    have hb : b ≠ a := h (b, w) (by simp)
    rw [Memory.read_cons, if_neg hb, ih fun d hd => h d (by simp [hd])]

theorem Memory.mem_erase {m : Memory} {a : Nat} {c : Nat × Word} : c ∈ m.erase a ↔ c ∈ m ∧ c.1 ≠ a := by
  simp [Memory.erase]

theorem Memory.read_erase_same (m : Memory) (a : Nat) : (m.erase a).read a = Word.zero :=
  Memory.read_of_not_listed _ _ fun _ hc => (Memory.mem_erase.mp hc).2

theorem Memory.read_erase_other (m : Memory) {a c : Nat} (h : c ≠ a) : (m.erase a).read c = m.read c := by
  induction m with
  | nil => rfl
  | cons d m ih =>
    obtain ⟨b, w⟩ := d
    by_cases hb : b = a
    · subst hb
      have : Memory.erase ((b, w) :: m) b = Memory.erase m b := by simp [Memory.erase]
      rw [this, ih, Memory.read_cons, if_neg (Ne.symm h)]
    · have : Memory.erase ((b, w) :: m) a = (b, w) :: Memory.erase m a := by simp [Memory.erase, hb]
      rw [this, Memory.read_cons, Memory.read_cons, ih]

theorem Memory.mem_insert {m : Memory} {a : Nat} {w : Word} {c : Nat × Word} :
    c ∈ m.insert a w ↔ c = (a, w) ∨ c ∈ m := by
  induction m with
  | nil => simp [Memory.insert]
  | cons d m ih =>
    obtain ⟨b, v⟩ := d
    unfold Memory.insert
    split
    · simp
    · simp only [List.mem_cons, ih]
      tauto

theorem Memory.read_insert_same (m : Memory) (a : Nat) (w : Word) (h : ∀ c ∈ m, c.1 ≠ a) :
    (m.insert a w).read a = w := by
  induction m with
  | nil => simp [Memory.insert, Memory.read_cons]
  | cons d m ih =>
    obtain ⟨b, v⟩ := d
    have hb : b ≠ a := h (b, v) (by simp)
    unfold Memory.insert
    split
    · simp [Memory.read_cons]
    · rw [Memory.read_cons, if_neg hb, ih fun c hc => h c (by simp [hc])]

theorem Memory.read_insert_other (m : Memory) {a c : Nat} (w : Word) (h : c ≠ a) :
    (m.insert a w).read c = m.read c := by
  induction m with
  | nil => simp [Memory.insert, Memory.read_cons, Ne.symm h]
  | cons d m ih =>
    obtain ⟨b, v⟩ := d
    unfold Memory.insert
    split
    · rw [Memory.read_cons, if_neg (Ne.symm h)]
    · rw [Memory.read_cons, Memory.read_cons, ih]

@[simp] theorem Memory.read_write_same (m : Memory) (a : Nat) (w : Word) : (m.write a w).read a = w := by
  unfold Memory.write
  split
  · rename_i h
    rw [Memory.read_erase_same, h]
  · exact Memory.read_insert_same _ _ _ fun _ hc => (Memory.mem_erase.mp hc).2

theorem Memory.read_write_other (m : Memory) {a c : Nat} (w : Word) (h : c ≠ a) :
    (m.write a w).read c = m.read c := by
  unfold Memory.write
  split
  · exact Memory.read_erase_other m h
  · rw [Memory.read_insert_other _ _ h, Memory.read_erase_other m h]

theorem Memory.mem_write {m : Memory} {a : Nat} {w : Word} {c : Nat × Word} (h : c ∈ m.write a w) :
    c.1 = a ∨ c ∈ m := by
  unfold Memory.write at h
  split at h
  · exact Or.inr (Memory.mem_erase.mp h).1
  · rcases Memory.mem_insert.mp h with h | h
    · exact Or.inl (by rw [h])
    · exact Or.inr (Memory.mem_erase.mp h).1

/-! The canonical form. -/

theorem Memory.erase_wf {m : Memory} (a : Nat) (h : m.wf) : (m.erase a).wf :=
  ⟨h.1.filter _, fun c hc => h.2 c (Memory.mem_erase.mp hc).1⟩

theorem Memory.insert_wf {m : Memory} {a : Nat} {w : Word} (h : m.wf) (hw : w ≠ Word.zero)
    (ha : ∀ c ∈ m, c.1 ≠ a) : (m.insert a w).wf := by
  refine ⟨?_, fun c hc => ?_⟩
  · obtain ⟨hs, -⟩ := h
    induction m with
    | nil => simp [Memory.insert]
    | cons d m ih =>
      obtain ⟨b, v⟩ := d
      have hb : b ≠ a := ha (b, v) (by simp)
      rw [List.pairwise_cons] at hs
      unfold Memory.insert
      split
      · rename_i hlt
        refine List.pairwise_cons.mpr ⟨fun c hc => ?_, List.pairwise_cons.mpr hs⟩
        rcases List.mem_cons.mp hc with hc | hc
        · rw [hc]; exact hlt
        · have := hs.1 c hc; simp only at this ⊢; omega
      · refine List.pairwise_cons.mpr ⟨fun c hc => ?_, ih (fun c hc => ha c (by simp [hc])) hs.2⟩
        rcases Memory.mem_insert.mp hc with hc | hc
        · rw [hc]; simp only; omega
        · exact hs.1 c hc
  · rcases Memory.mem_insert.mp hc with hc | hc
    · rw [hc]; exact hw
    · exact h.2 c hc

theorem Memory.write_wf {m : Memory} (a : Nat) (w : Word) (h : m.wf) : (m.write a w).wf := by
  unfold Memory.write
  split
  · exact Memory.erase_wf a h
  · rename_i hw
    exact Memory.insert_wf (Memory.erase_wf a h) hw fun _ hc => (Memory.mem_erase.mp hc).2

theorem Memory.reset_wf : Memory.wf State.reset.mem := by decide

/-! The `written` bits. -/

@[simp] theorem Marks.mem_mark {l : Marks} {a b : Nat} : b ∈ l.mark a ↔ b = a ∨ b ∈ l := by
  induction l with
  | nil => simp [Marks.mark]
  | cons c l ih =>
    unfold Marks.mark
    split
    · simp
    · split
      · rename_i h; subst h; simp
      · simp only [List.mem_cons, ih]; tauto

theorem Marks.mark_wf {l : Marks} (a : Nat) (h : l.wf) : (l.mark a).wf := by
  induction l with
  | nil => simp [Marks.mark]
  | cons c l ih =>
    rw [Marks.wf, List.pairwise_cons] at h
    unfold Marks.mark
    split
    · rename_i hlt
      refine List.pairwise_cons.mpr ⟨fun b hb => ?_, List.pairwise_cons.mpr h⟩
      rcases List.mem_cons.mp hb with hb | hb
      · omega
      · have := h.1 b hb; omega
    · split
      · exact List.pairwise_cons.mpr h
      · refine List.pairwise_cons.mpr ⟨fun b hb => ?_, ih h.2⟩
        rcases Marks.mem_mark.mp hb with hb | hb
        · omega
        · exact h.1 b hb

theorem Marks.lt_cursor {l : Marks} {a : Nat} (h : a ∈ l) : a < l.cursor := by
  induction l with
  | nil => cases h
  | cons b l ih =>
    simp only [Marks.cursor, List.foldr_cons] at ih ⊢
    rcases List.mem_cons.mp h with h | h
    · omega
    · have := ih h; omega

theorem Marks.cursor_le {l : Marks} {n : Nat} (h : ∀ a ∈ l, a < n) : l.cursor ≤ n := by
  induction l with
  | nil => simp [Marks.cursor]
  | cons b l ih =>
    have hb := h b (by simp)
    have := ih fun a ha => h a (by simp [ha])
    simp only [Marks.cursor, List.foldr_cons] at this ⊢
    omega

theorem Marks.cursor_pred_mem {l : Marks} (h : l ≠ []) : l.cursor - 1 ∈ l := by
  induction l with
  | nil => exact absurd rfl h
  | cons b l ih =>
    by_cases hl : l = []
    · subst hl; simp [Marks.cursor]
    · have := ih hl
      simp only [Marks.cursor, List.foldr_cons] at this ⊢
      rcases Nat.le_total (b + 1) (List.foldr (fun a c => max (a + 1) c) 0 l) with hle | hle
      · rw [Nat.max_eq_right hle]; exact List.mem_cons_of_mem _ this
      · rw [Nat.max_eq_left hle]; simp

end Sys2Proof.Machine
end

