-- ==== Sys2Proof/Laws/Ops.lean ====
section
/-! SUPPORT. Ops.lean: for each checked operation, everything it can answer, once. -/

namespace Sys2Proof.Machine

@[simp] theorem State.inRange_iff (s : State) (a : Int) : s.inRange a = true ↔ 0 ≤ a ∧ a < (s.capacity : Int) := by
  simp [State.inRange]

@[simp] theorem effectiveAddress_toNat (a : Nat) : (effectiveAddress a).toNat = a := by simp [effectiveAddress]

/-! MemRead and MemWrite at an operand. -/

theorem State.memRead_operand (s : State) {a : Nat} (h : a < s.capacity) :
    s.memRead (effectiveAddress a) = .ok (s.mem.read a) := by
  simp [State.memRead, State.inRange, effectiveAddress, h]

theorem State.memRead_operand_raises (s : State) {a : Nat} (h : s.capacity ≤ a) :
    s.memRead (effectiveAddress a) = .error (.addressOutOfRange a) := by
  simp [State.memRead, State.inRange, effectiveAddress, Nat.not_lt.mpr h]

theorem State.memWrite_operand (s : State) {a : Nat} (w : Word) (h : a < s.capacity) :
    s.memWrite (effectiveAddress a) w = .ok (s.putWord a w) := by
  simp [State.memWrite, State.inRange, effectiveAddress, h]

theorem State.memWrite_operand_raises (s : State) {a : Nat} (w : Word) (h : s.capacity ≤ a) :
    s.memWrite (effectiveAddress a) w = .error (.addressOutOfRange a) := by
  simp [State.memWrite, State.inRange, effectiveAddress, Nat.not_lt.mpr h]

/-! SetPC and the two ways a step ends. -/

theorem State.setPc_inRange (s : State) {a : Nat} (h : a < s.capacity) : s.setPc (a : Int) = .ok (s.jump a) := by
  have h' : ¬((a : Int) < 0 ∨ (a : Int) ≥ (s.capacity : Int)) := by omega
  rw [State.setPc, if_neg h', Int.toNat_natCast]

theorem State.setPc_raises (s : State) {a : Nat} (h : s.capacity ≤ a) :
    s.setPc (a : Int) = .error (.addressOutOfRange a) := by
  have h' : (a : Int) < 0 ∨ (a : Int) ≥ (s.capacity : Int) := by omega
  rw [State.setPc, if_pos h']

theorem State.advance_inRange (s : State) (h : s.pc + 1 < s.capacity) : s.advance = s.jump (s.pc + 1) := by
  have := s.setPc_inRange h
  simp only [State.advance, Nat.cast_add, Nat.cast_one] at this ⊢
  rw [this]; rfl

theorem State.advance_raises (s : State) (h : s.capacity ≤ s.pc + 1) :
    s.advance = s.raise (.addressOutOfRange ((s.pc : Int) + 1)) := by
  have := s.setPc_raises h
  simp only [State.advance, Nat.cast_add, Nat.cast_one] at this ⊢
  rw [this]; rfl

theorem State.branchTo_inRange (s : State) {a : Nat} (h : a < s.capacity) : s.branchTo a = s.jump a := by
  simp [State.branchTo, effectiveAddress, s.setPc_inRange h, State.settle]

theorem State.branchTo_raises (s : State) {a : Nat} (h : s.capacity ≤ a) :
    s.branchTo a = s.raise (.addressOutOfRange a) := by
  simp [State.branchTo, effectiveAddress, s.setPc_raises h, State.settle]

/-- The advance of a state given by an update that leaves `pc` and the capacity as they were. -/
theorem State.advance_at (t : State) {k n : Nat} (hpc : t.pc = k) (hn : t.capacity = n) (h : k + 1 < n) :
    t.advance = t.jump (k + 1) := by
  subst hpc hn; exact t.advance_inRange h

/-! The three shapes of a meaning. -/

theorem State.withOperand_inRange (s : State) {a : Nat} (f : Word → State) (h : a < s.capacity) :
    s.withOperand a f = f (s.mem.read a) := by
  simp [State.withOperand, s.memRead_operand h]

theorem State.withOperand_raises (s : State) {a : Nat} (f : Word → State) (h : s.capacity ≤ a) :
    s.withOperand a f = s.raise (.addressOutOfRange a) := by
  simp [State.withOperand, s.memRead_operand_raises h]

@[simp] theorem State.accResult_ok (s : State) (w : Word) : s.accResult (.ok w) = (s.setAcc w).advance := rfl

@[simp] theorem State.accResult_error (s : State) (e : Err) : s.accResult (.error e) = s.raise e := rfl

theorem State.storeResult_inRange (s : State) {a : Nat} (w : Word) (h : a < s.capacity) :
    s.storeResult a w = (s.putWord a w).advance := by
  simp [State.storeResult, s.memWrite_operand w h]

theorem State.storeResult_raises (s : State) {a : Nat} (w : Word) (h : s.capacity ≤ a) :
    s.storeResult a w = s.raise (.addressOutOfRange a) := by
  simp [State.storeResult, s.memWrite_operand_raises w h]

theorem State.accResult_inRange (s : State) (w : Word) (h : s.pc + 1 < s.capacity) :
    s.accResult (.ok w) = (s.setAcc w).jump (s.pc + 1) := (s.setAcc w).advance_at rfl rfl h

theorem State.storeResult_completes (s : State) {a : Nat} (w : Word) (ha : a < s.capacity)
    (h : s.pc + 1 < s.capacity) : s.storeResult a w = (s.putWord a w).jump (s.pc + 1) := by
  rw [s.storeResult_inRange w ha]; exact (s.putWord a w).advance_at rfl rfl h

/-! READ's loop. -/

@[simp] theorem scanInput_nil : scanInput [] = ⟨[], none, []⟩ := rfl

theorem scanInput_valid {line : Text} {w : Word} (rest : List Text) (h : parseWord line = some w) :
    scanInput (line :: rest) = ⟨[], some w, rest⟩ := by simp [scanInput, h]

theorem scanInput_malformed {line : Text} (rest : List Text) (h : parseWord line = none) :
    scanInput (line :: rest) =
      ⟨line :: (scanInput rest).rejected, (scanInput rest).word, (scanInput rest).rest⟩ := by
  simp [scanInput, h]

end Sys2Proof.Machine
end

