-- ==== Sys2Proof/Laws/Alu.lean ====
section
/-! SUPPORT. Alu.lean: the value of a Word and of the two ways to make one from an integer. -/

namespace Sys2Proof.Machine

theorem wordVal_natAbs (w : Word) : (wordVal w).natAbs = w.mag.val := by
  unfold wordVal; split <;> simp

theorem wordVal_bound (w : Word) : (wordVal w).natAbs ≤ 999999 := by
  rw [wordVal_natAbs]; omega

theorem wordVal_eq_zero_iff (w : Word) : wordVal w = 0 ↔ w.mag.val = 0 := by
  rw [← wordVal_natAbs]; omega

@[simp] theorem fromInt_sign (r : Int) : (fromInt r).sign = signOf r := rfl

theorem fromInt_mag {r : Int} (h : r.natAbs ≤ 999999) : (fromInt r).mag.val = r.natAbs := by
  simp only [fromInt, Fin.val_ofNat]; omega

theorem wordVal_fromInt {r : Int} (h : r.natAbs ≤ 999999) : wordVal (fromInt r) = r := by
  unfold wordVal
  rw [fromInt_mag h, fromInt_sign]
  unfold signOf
  split <;> rename_i hs <;> split at hs <;> first | contradiction | omega

theorem trunc_of_fits {r : Int} (h : r.natAbs ≤ 999999) : trunc r = fromInt r := if_pos h

theorem trunc_of_overflow {r : Int} (h : 999999 < r.natAbs) :
    trunc r = ⟨signOf r, Fin.ofNat 1000000 (r.natAbs % 1000000)⟩ := if_neg (by omega)

end Sys2Proof.Machine
end

