-- ==== Sys2Proof/Laws/Exec.lean ====
section
/-! SUPPORT. Exec.lean: everything an instruction can do, once: it waits for input, or it does its work and then either
moves `pc` into range or faults; and everything a step can do. Statements about all instructions follow from `exec_does` by cases, without unfolding
a meaning again. -/

namespace Sys2Proof.Machine

/-- What an instruction may have done before its last act, which moves `pc` or faults. -/
structure Worked (i : Instr) (s u : State) : Prop where
  pc : u.pc = s.pc
  capacity : u.capacity = s.capacity
  fault : u.fault = s.fault
  waiting : (u.waiting = s.waiting ∧ ∀ a, i ≠ .read a) ∨ (u.waiting = false ∧ ∃ a, i = .read a)
  halted : (u.halted = s.halted ∧ ∀ a, i ≠ .halt a) ∨ (u.halted = true ∧ ∃ a, i = .halt a)
  store : (u.mem = s.mem ∧ u.written = s.written) ∨
    ∃ a w, a < s.capacity ∧ u.mem = s.mem.write a w ∧ u.written = s.written.mark a

/-- An instruction other than READ and HALT. -/
def plainInstr (i : Instr) : Prop := (∀ a, i ≠ .read a) ∧ ∀ a, i ≠ .halt a

theorem Worked.refl {i : Instr} (hi : plainInstr i) (s : State) : Worked i s s :=
  ⟨rfl, rfl, rfl, .inl ⟨rfl, hi.1⟩, .inl ⟨rfl, hi.2⟩, .inl ⟨rfl, rfl⟩⟩

/-- The errors an instruction raises. -/
def Err.raisable (n : Nat) (e : Err) : Prop :=
  (∃ v : Int, e = .addressOutOfRange v ∧ (v < 0 ∨ (n : Int) ≤ v)) ∨ e = .divisionByZero

/-- What an instruction leaves. -/
def Does (i : Instr) (s t : State) : Prop :=
  ((∃ a, i = .read a) ∧ (scanInput s.input).word = none ∧ t = s.consumeInput (scanInput s.input)) ∨
  (∃ u b, Worked i s u ∧ b < s.capacity ∧ t = u.jump b) ∨
  (∃ u e, Worked i s u ∧ e.raisable s.capacity ∧ t = u.raise e)

theorem advance_does {i : Instr} {s u : State} (h : Worked i s u) : Does i s u.advance := by
  rcases Nat.lt_or_ge (s.pc + 1) s.capacity with hp | hp
  · exact .inr (.inl ⟨u, s.pc + 1, h, hp, u.advance_at h.pc h.capacity hp⟩)
  · refine .inr (.inr ⟨u, _, h, .inl ⟨_, rfl, .inr ?_⟩, u.advance_raises (by rw [h.pc, h.capacity]; exact hp)⟩)
    rw [h.pc]; omega

theorem branchTo_does {i : Instr} (hi : plainInstr i) (s : State) (a : Nat) : Does i s (s.branchTo a) := by
  rcases Nat.lt_or_ge a s.capacity with ha | ha
  · exact .inr (.inl ⟨s, a, .refl hi s, ha, s.branchTo_inRange ha⟩)
  · exact .inr (.inr ⟨s, _, .refl hi s, .inl ⟨_, rfl, .inr (by omega)⟩, s.branchTo_raises ha⟩)

theorem withOperand_does {i : Instr} {s : State} (hi : plainInstr i) (a : Nat) {f : Word → State} (h : ∀ v, Does i s (f v)) :
    Does i s (s.withOperand a f) := by
  rcases Nat.lt_or_ge a s.capacity with ha | ha
  · rw [s.withOperand_inRange f ha]; exact h _
  · exact .inr (.inr ⟨s, _, .refl hi s, .inl ⟨_, rfl, .inr (by omega)⟩, s.withOperand_raises f ha⟩)

theorem storeResult_does {i : Instr} {s u : State} (a : Nat) (w : Word) (h : Worked i s u)
    (hm : u.mem = s.mem ∧ u.written = s.written) : Does i s (u.storeResult a w) := by
  rcases Nat.lt_or_ge a s.capacity with ha | ha
  · rw [u.storeResult_inRange w (by rw [h.capacity]; exact ha)]
    exact advance_does ⟨h.pc, h.capacity, h.fault, h.waiting, h.halted, .inr ⟨a, w, ha, by simp [hm.1], by simp [hm.2]⟩⟩
  · exact .inr (.inr ⟨u, _, h, .inl ⟨_, rfl, .inr (by omega)⟩, u.storeResult_raises w (by rw [h.capacity]; exact ha)⟩)

theorem accResult_does {i : Instr} (hi : plainInstr i) (s : State) {r : Except Err Word} (h : ∀ e, r = .error e → e.raisable s.capacity) :
    Does i s (s.accResult r) := by
  cases r with
  | error e => exact .inr (.inr ⟨s, e, .refl hi s, h e rfl, rfl⟩)
  | ok w => exact advance_does ⟨rfl, rfl, rfl, .inl ⟨rfl, hi.1⟩, .inl ⟨rfl, hi.2⟩, .inl ⟨rfl, rfl⟩⟩

theorem aluDiv_raises {a b : Word} {e : Err} (h : aluDiv a b = .error e) : e = .divisionByZero := by
  unfold aluDiv at h
  split at h
  · injection h with h; exact h.symm
  · cases h

/-- Everything an instruction can do. -/
theorem exec_does (i : Instr) (s t : State) (h : exec i s = .next t) : Does i s t := by
  cases i with
  | read a =>
    simp only [exec, execRead] at h
    cases hw : (scanInput s.input).word with
    | none => rw [hw] at h; injection h with h; exact .inl ⟨⟨a, rfl⟩, hw, h.symm⟩
    | some w =>
      rw [hw] at h; injection h with h; subst h
      exact storeResult_does a w ⟨rfl, rfl, rfl, .inr ⟨rfl, a, rfl⟩, .inl ⟨rfl, by simp⟩, .inl ⟨rfl, rfl⟩⟩ ⟨rfl, rfl⟩
  | write a =>
    injection h with h; subst h
    exact withOperand_does ⟨by simp, by simp⟩ a fun v => advance_does ⟨rfl, rfl, rfl, .inl ⟨rfl, by simp⟩, .inl ⟨rfl, by simp⟩, .inl ⟨rfl, rfl⟩⟩
  | load a => injection h with h; subst h; exact withOperand_does ⟨by simp, by simp⟩ a fun v => accResult_does ⟨by simp, by simp⟩ s (by simp)
  | store a => injection h with h; subst h; exact storeResult_does a s.acc (.refl ⟨by simp, by simp⟩ s) ⟨rfl, rfl⟩
  | add a => injection h with h; subst h; exact withOperand_does ⟨by simp, by simp⟩ a fun v => accResult_does ⟨by simp, by simp⟩ s (by simp)
  | subtract a => injection h with h; subst h; exact withOperand_does ⟨by simp, by simp⟩ a fun v => accResult_does ⟨by simp, by simp⟩ s (by simp)
  | multiply a => injection h with h; subst h; exact withOperand_does ⟨by simp, by simp⟩ a fun v => accResult_does ⟨by simp, by simp⟩ s (by simp)
  | divide a =>
    injection h with h; subst h
    exact withOperand_does ⟨by simp, by simp⟩ a fun v => accResult_does ⟨by simp, by simp⟩ s fun e he => .inr (aluDiv_raises he)
  | branch a => injection h with h; subst h; exact branchTo_does ⟨by simp, by simp⟩ s a
  | branchneg a =>
    injection h with h; subst h
    split
    · exact branchTo_does ⟨by simp, by simp⟩ s a
    · exact advance_does (.refl ⟨by simp, by simp⟩ s)
  | branchzero a =>
    injection h with h; subst h
    split
    · exact branchTo_does ⟨by simp, by simp⟩ s a
    · exact advance_does (.refl ⟨by simp, by simp⟩ s)
  | halt a =>
    injection h with h; subst h
    exact advance_does ⟨rfl, rfl, rfl, .inl ⟨rfl, by simp⟩, .inr ⟨rfl, a, rfl⟩, .inl ⟨rfl, rfl⟩⟩
  | noop a => injection h with h; subst h; exact advance_does (.refl ⟨by simp, by simp⟩ s)

/-- Everything a step can do: nothing, because the machine is faulted; halt, because it is halted or `pc` is out of range;
or execute the instruction decoded from the Word at `pc`. -/
theorem step_does (s t : State) (h : step s = .next t) :
    (s.fault.isSome = true ∧ t = s) ∨
    (s.fault = none ∧ s.finished = true ∧ t = s.setHalted) ∨
    (s.fault = none ∧ s.halted = false ∧ s.pc < s.capacity ∧ exec (decode (s.mem.read s.pc)) s = .next t) := by
  unfold step at h
  split at h
  · rename_i hf; injection h with h; exact .inl ⟨hf, h.symm⟩
  · rename_i hf
    have hn : s.fault = none := by simpa using hf
    split at h
    · rename_i hd; injection h with h; exact .inr (.inl ⟨hn, hd, h.symm⟩)
    · rename_i hd
      simp only [State.finished, Bool.or_eq_true, not_or, Bool.not_eq_true, Bool.not_eq_false'] at hd
      have hp : s.pc < s.capacity := by simpa using hd.2
      rw [State.fetch, State.memRead, if_pos hd.2, Int.toNat_natCast] at h
      exact .inr (.inr ⟨hn, hd.1, hp, h⟩)

end Sys2Proof.Machine
end

