-- ==== Sys2Proof/Laws/Packed.lean ====
section
/-! SUPPORT. Packed.lean: the packed binary form (30_encoding R90): nibbles and digits. -/

namespace Sys2Proof

theorem bcdOf_succ (n m : Nat) : bcdOf (n + 1) m = m % 10 + 16 * bcdOf n (m / 10) := rfl

theorem ofBcd_succ (n p : Nat) :
    ofBcd (n + 1) p = if p % 16 < 10 then (ofBcd n (p / 16)).map (fun r => p % 16 + 10 * r) else none := rfl

theorem bcdOf_lt (n m : Nat) : bcdOf n m < 16 ^ n := by
  induction n generalizing m with
  | zero => simp [bcdOf]
  | succ n ih => have := ih (m / 10); rw [bcdOf_succ, pow_succ]; omega

theorem ofBcd_bcdOf (n m : Nat) : ofBcd n (bcdOf n m) = some (m % 10 ^ n) := by
  induction n generalizing m with
  | zero => simp [ofBcd, Nat.mod_one]
  | succ n ih =>
    have h1 : bcdOf (n + 1) m / 16 = bcdOf n (m / 10) := by rw [bcdOf_succ]; omega
    have h2 : bcdOf (n + 1) m % 16 = m % 10 := by rw [bcdOf_succ]; omega
    rw [ofBcd_succ, h1, h2, if_pos (by omega), ih]
    simp only [Option.map_some]
    congr 1
    rw [pow_succ, Nat.mul_comm (10 ^ n) 10, Nat.mod_mul]

theorem pack_toNat (w : Word) : (pack w).toNat = 2 ^ 24 * signBit w.sign + bcdOf 6 w.mag.val := by
  have := bcdOf_lt 6 w.mag.val
  have hs : signBit w.sign ≤ 1 := by cases w.sign <;> decide
  unfold pack
  rw [BitVec.toNat_ofNat]
  generalize bcdOf 6 w.mag.val = b at *
  generalize signBit w.sign = s at *
  omega

@[simp] theorem signOfBit_signBit (s : Sign) : signOfBit (signBit s) = s := by cases s <;> rfl

end Sys2Proof
end

