-- ==== Sys2Proof/Laws/PerInstr.lean ====
section
/-! SUPPORT. PerInstr.lean: the statements made per instruction. RoundTrip: a well-formed instruction, encoded with
either sign, decodes to itself (30_encoding R70, R74, R77). -/

namespace Sys2Proof.Laws.RoundTrip

/-- Every Word that encodes the instruction decodes to it. -/
def Statement (i : Instr) : Prop := i.wellFormed = true → ∀ sg : Sign, decode (encodeSigned sg i) = i

theorem opfield_of_sum {f a : Nat} (sg : Sign) (hf : f ≤ 999) (ha : a ≤ 999) :
    Word.opfield ⟨sg, Fin.ofNat 1000000 (1000 * f + a)⟩ = f := by
  simp only [Word.opfield, Fin.val_ofNat]; omega

theorem operand_of_sum {f a : Nat} (sg : Sign) (ha : a ≤ 999) :
    Word.operand ⟨sg, Fin.ofNat 1000000 (1000 * f + a)⟩ = a := by
  simp only [Word.operand, Fin.val_ofNat]; omega

theorem operand_le {a : Nat} (h : operandOk a = true) : a ≤ 999 := by simpa [operandOk] using h

theorem decode_sum {f a : Nat} (sg : Sign) (hf : f ≤ 999) (h : operandOk a = true) :
    decode ⟨sg, Fin.ofNat 1000000 (1000 * f + a)⟩ = decodeFields f a := by
  rw [decode, opfield_of_sum sg hf (operand_le h), operand_of_sum sg (operand_le h)]

theorem read (a : Nat) : Statement (.read a) := fun h sg => decode_sum (f := 10) sg (by decide) h
theorem write (a : Nat) : Statement (.write a) := fun h sg => decode_sum (f := 11) sg (by decide) h
theorem load (a : Nat) : Statement (.load a) := fun h sg => decode_sum (f := 20) sg (by decide) h
theorem store (a : Nat) : Statement (.store a) := fun h sg => decode_sum (f := 21) sg (by decide) h
theorem add (a : Nat) : Statement (.add a) := fun h sg => decode_sum (f := 30) sg (by decide) h
theorem subtract (a : Nat) : Statement (.subtract a) := fun h sg => decode_sum (f := 31) sg (by decide) h
theorem multiply (a : Nat) : Statement (.multiply a) := fun h sg => decode_sum (f := 32) sg (by decide) h
theorem divide (a : Nat) : Statement (.divide a) := fun h sg => decode_sum (f := 33) sg (by decide) h
theorem branch (a : Nat) : Statement (.branch a) := fun h sg => decode_sum (f := 40) sg (by decide) h
theorem branchneg (a : Nat) : Statement (.branchneg a) := fun h sg => decode_sum (f := 41) sg (by decide) h
theorem branchzero (a : Nat) : Statement (.branchzero a) := fun h sg => decode_sum (f := 42) sg (by decide) h
theorem halt (a : Nat) : Statement (.halt a) := fun h sg => decode_sum (f := 43) sg (by decide) h
theorem noop (a : Nat) : Statement (.noop a) := fun h sg => decode_sum (f := 0) sg (by decide) h

end Sys2Proof.Laws.RoundTrip
end

