-- ==== Sys2Proof/Certificates/Slice0/Obligations.lean ====
section
/-! DEFINITION. Obligations.lean: the statements for the provers, and the words they are stated in.

Each docstring names the rules of spec/ it formalises. Where a clause rests on a decision the spec marks as its own
(`[decision Dn]`) the docstring names the decision and the log entry. -/

namespace Sys2Proof.Claims

open Sys2Proof Sys2Proof.Machine

/-- Every cell of memory reads as before and every `written` bit is as before. -/
def SameMemory (s t : State) : Prop :=
  (∀ b : Nat, t.mem.read b = s.mem.read b) ∧ ∀ b : Nat, b ∈ t.written ↔ b ∈ s.written

/-- Every cell but the one at address `x` reads as before, and its `written` bit is as before. -/
def SameMemoryExcept (x : Int) (s t : State) : Prop :=
  ∀ b : Nat, (b : Int) ≠ x → t.mem.read b = s.mem.read b ∧ (b ∈ t.written ↔ b ∈ s.written)

/-- The three streams are as before. -/
def SameStreams (s t : State) : Prop := t.input = s.input ∧ t.output = s.output ∧ t.errlog = s.errlog

/-- The capacity, the input-wait flag and the fault latch are as before. -/
def SameStatus (s t : State) : Prop := t.capacity = s.capacity ∧ t.waiting = s.waiting ∧ t.fault = s.fault

/-- 41_sequencer R120, R124: `pc` went on by one, and `halted` was set if that is the sentinel `N-1`. -/
def Advanced (s t : State) : Prop :=
  t.pc = s.pc + 1 ∧ (t.halted = true ↔ s.halted = true ∨ s.pc + 1 = s.capacity - 1)

/-- 41_sequencer R120: `pc` became the target, and `halted` was set if that is the sentinel `N-1`. -/
def JumpedTo (a : Nat) (s t : State) : Prop :=
  t.pc = a ∧ (t.halted = true ↔ s.halted = true ∨ a = s.capacity - 1)

/-- 60_exceptions R186 (decision D10): the state a fault leaves: the latch holds the kind, the address of the
instruction and the info, `waiting` is false, and nothing else changed. -/
def faulted (s : State) (kind : ErrorKind) (info : Option Int) : State :=
  { s with fault := some ⟨kind, s.pc, info⟩, waiting := false }

/-- What a frame says of the latch and the input-wait flag: as before, or a fault of this instruction was latched. -/
def SameStatusOrFault (s t : State) : Prop :=
  t.capacity = s.capacity ∧
  ((t.fault = s.fault ∧ t.waiting = s.waiting) ∨
    (∃ kind info, t.fault = some ⟨kind, s.pc, info⟩) ∧ t.waiting = false)

/-- 10_state R22, 41_sequencer R120: what a frame says of `halted`: as before, or set because `pc` reached `N-1`. -/
def SameHaltedOrSentinel (s t : State) : Prop := t.halted = s.halted ∨ (t.halted = true ∧ t.pc + 1 = s.capacity)

/-- 40_word_arithmetic R102, R103, R112: the Word an exact integer result `r` becomes. The sign of an exact zero is
decision D5, the sign of an overflowed zero decision D4 (notes/assumptions/11.md). -/
def TruncatesTo (r : Int) (w : Word) : Prop :=
  (r.natAbs ≤ 999999 → wordVal w = r ∧ (r = 0 → w.sign = .plus)) ∧
  (999999 < r.natAbs → w.mag.val = r.natAbs % 1000000 ∧ w.sign = if r < 0 then .minus else .plus)

/-- 40_word_arithmetic R112 (4), (5): a negative exact result whose truncation has six zero digits. -/
abbrev OverflowsToNegativeZero (r : Int) : Prop := r < 0 ∧ 999999 < r.natAbs ∧ r.natAbs % 1000000 = 0

/-- 20_memory R55: the number of entries of a window of a positive size, `min(size, N)`. -/
def windowSize (s : State) (size : Int) : Int := min size s.capacity

/-- 20_memory R55 (decision D16): the first address of a window before it is shifted into range. -/
def unshiftedLow (s : State) (center size : Int) : Int := center - windowSize s size / 2

/-- 93_implementation_defined G3: `q` is the floor of `n / d`: `q <= n/d < q+1`. -/
def FloorQuotient (n d q : Int) : Prop :=
  (0 < d → q * d ≤ n ∧ n < (q + 1) * d) ∧ (d < 0 → n ≤ q * d ∧ (q + 1) * d < n)

/-- Every line of a list is malformed. -/
def AllMalformed (ls : List Text) : Prop := ∀ line ∈ ls, parseWord line = none

/-- 30_encoding R80, R84: what `ParseWord` accepts, and the Word it gives: after trimming, an optional sign and a body of
six digits, or of four, which is widened as an instruction when its first two digits are a known code. -/
def Spells (text : Text) (w : Word) : Prop :=
  ∃ body : Text,
    (trimText text = signChar w.sign :: body ∨ (trimText text = body ∧ w.sign = .plus)) ∧
    (∀ c ∈ body, isDigitChar c = true) ∧
    ((body.length = 6 ∧ w.mag.val = decimalValue body) ∨
      (body.length = 4 ∧
        w.mag.val =
          if decimalValue body / 100 ∈ knownCodes then 1000 * (decimalValue body / 100) + decimalValue body % 100
          else decimalValue body))

/-- A decode error or an instruction, as an instruction if there is one. -/
def decodesTo (p : BitVec 25) (i : Instr) : Prop := decodePacked p = .ok i

end Sys2Proof.Claims

open Sys2Proof Sys2Proof.Machine Sys2Proof.Claims

/-! Decoding and encoding (30_encoding.md). -/

/-- Packed words written out from the patterns of 30_encoding R75 and R91 (and 95_test_vectors 2.1, part 3) decode to the
instructions they stand for. The packed form is the spec's decision D2, the ignored sign its decision D7. -/
def Obligations.TabledWordsDecode : Prop :=
  decodesTo 0b0000000010000000000000111 (.read 7) ∧ decodesTo 0b0000000010001000000000111 (.write 7) ∧
  decodesTo 0b0000000100000000000000101 (.load 5) ∧ decodesTo 0b0000000100001000000001001 (.store 9) ∧
  decodesTo 0b0000000110000000000000110 (.add 6) ∧ decodesTo 0b0000000110001000000010001 (.subtract 11) ∧
  decodesTo 0b0000000110010000000000110 (.multiply 6) ∧ decodesTo 0b0000000110011000000000110 (.divide 6) ∧
  decodesTo 0b0000001000000000000000010 (.branch 2) ∧ decodesTo 0b0000001000001000000001001 (.branchneg 9) ∧
  decodesTo 0b0000001000010000010011001 (.branchzero 99) ∧ decodesTo 0b1000001000011000100100011 (.halt 123) ∧
  decodesTo 0b0000100010000000000000111 (.noop 7) ∧ decodesTo 0 (.noop 0)

/-- 30_encoding R70, R73 to R77, R90: every well-formed instruction, encoded with either sign and packed, decodes to
itself with every operand. -/
def Obligations.PackedEncodingsDecodeBack : Prop :=
  ∀ (i : Instr) (sg : Sign), i.wellFormed = true → decodePacked (pack (encodeSigned sg i)) = .ok i

/-- 30_encoding R70, R75: an instruction word is the encoding of what it decodes to, with its own sign; a data word (NOOP)
keeps its operand field. -/
def Obligations.InstructionWordsReencode : Prop :=
  ∀ w : Word,
    (w.opfield ∈ knownCodes → encodeSigned w.sign (decode w) = w) ∧
    (w.opfield ∉ knownCodes → decode w = .noop (w.mag.val % 1000))

/-- 30_encoding R90: the packed form has one pattern for each Word and loses nothing: unpacking a packed Word gives it
back, and a pattern that unpacks to a Word is that Word's packed form (decision D2). -/
def Obligations.PackedFormIsFaithful : Prop :=
  (∀ w : Word, unpack (pack w) = .ok w) ∧ ∀ (p : BitVec 25) (w : Word), unpack p = .ok w → pack w = p

/-- 30_encoding R91: on the packed form of any Word, the row of the opcode table chosen by mask and match, with NOOP as the
default row, names the instruction the decoder reads. -/
def Obligations.TableRowsNameDecodedInstruction : Prop := ∀ w : Word, tableName (pack w) = (decode w).name

/-! Reset and the invariant (10_state R33, R36). -/

/-- 10_state R36, 70_reset_and_hazards R211: the power-on state, for every capacity, and the default machine's capacity.
`waiting` and `fault` are the spec's decisions D13 and D10; the empty `in` is the model's choice (notes/assumptions/6.md). -/
def Obligations.PowerOnState : Prop :=
  State.reset = State.powerOn 100 ∧
  ∀ n : Nat, n = (State.powerOn n).capacity ∧ wordVal (State.powerOn n).acc = 0 ∧ (State.powerOn n).acc.sign = .plus ∧
    (State.powerOn n).pc = 0 ∧ (State.powerOn n).halted = false ∧ (State.powerOn n).waiting = false ∧
    (State.powerOn n).fault = none ∧ (∀ a : Nat, (State.powerOn n).mem.read a = Word.zero) ∧
    (∀ a : Nat, a ∉ (State.powerOn n).written) ∧ hostCursor (State.powerOn n) = 0 ∧ hostLen (State.powerOn n) = 0 ∧
    (State.powerOn n).output = [] ∧ (State.powerOn n).errlog = [] ∧ (State.powerOn n).input = []

/-- 70_reset_and_hazards R210: the reset state satisfies the invariants of 10_state R33, for every capacity that may be
built and for the machine the model starts from. 00_scope R5 (decision D1), 10_state R37: a capacity outside `2..1000` is
refused, with an initial sequence or without, and a machine built with one is a machine built without one and cleared. -/
def Obligations.PowerOnSatisfiesInvariant : Prop :=
  State.reset.Inv ∧ (∀ (n : Nat) (s : State), buildMachine n = .ok s → s.Inv ∧ s.capacity = n) ∧
  (∀ n : Nat, ¬ Config.CapacityOk n →
    buildMachine n = .error (.capacityNotAllowed n) ∧ ∀ ws : List Word, powerOnWith n ws = .error (.capacityNotAllowed n)) ∧
  ∀ (n : Nat) (ws : List Word) (s : State),
    powerOnWith n ws = .ok s ↔ ∃ t : State, buildMachine n = .ok t ∧ hostClear t ws = .ok s

/-- 10_state R33: every step keeps the invariant, from any state that has it. -/
def Obligations.StepKeepsInvariant : Prop := ∀ s t : State, s.Inv → step s = .next t → t.Inv

/-- 10_state R33 with R32 and R38: every operation the host may issue keeps the invariant, and the capacity. -/
def Obligations.HostOperationsKeepInvariant : Prop :=
  ∀ (s t : State) (op : HostOp) (e : Option Err), s.Inv → hostApply s op = .ok (t, e) → t.Inv ∧ t.capacity = s.capacity

/-- 10_state R33 (I3, I4): once `halted` is true, and once `fault` is set, it stays so under every operation of the host
but `Reset()`. -/
def Obligations.HaltAndFaultLastUntilReset : Prop :=
  ∀ (s t : State) (op : HostOp) (e : Option Err), op ≠ .reset → hostApply s op = .ok (t, e) →
    (s.halted = true → t.halted = true) ∧ (s.fault.isSome = true → t.fault = s.fault)

/-! The sequencer (41_sequencer.md). -/

/-- 41_sequencer R121 to R123: on a machine that is not faulted and not halted, with `pc` in range, a step is `exec` of the
instruction that the Word at `pc` decodes to, at that state; the fetch changes nothing. -/
def Obligations.StepRunsDecodedInstruction : Prop :=
  ∀ (s : State) (i : Instr), s.fault = none → s.halted = false → s.pc < s.capacity → decode (s.mem.read s.pc) = i →
    step s = exec i s

/-- 41_sequencer R122, R127 and 60_exceptions R189: a faulted machine does nothing (decision D10), a halted one does
nothing, and one whose `pc` is out of range becomes halted and does nothing else. -/
def Obligations.StoppedMachineDoesNothing : Prop :=
  ∀ s : State,
    (s.fault ≠ none → step s = .next s) ∧
    (s.fault = none → s.halted = true → step s = .next s) ∧
    (s.fault = none → s.halted = false → s.capacity ≤ s.pc → step s = .next { s with halted := true })

/-- 30_encoding R76, 60_exceptions R185: every step of every state answers a next state: there is no illegal instruction
and no stop of the model. That a step which raises an error has a next state rests on the fault latch (decision D10,
notes/assumptions/1.md); that a READ with no line that parses has one is the model's choice (notes/assumptions/4.md). -/
def Obligations.EveryStepAnswersNext : Prop := ∀ s : State, ∃ t : State, step s = .next t

/-- 41_sequencer R120: `SetPC`, whole: the check, what a success and a failure leave, and that a step changes `pc` in no
other way: where `pc` has changed, `SetPC` of the new value is a success, and the sentinel has halted the machine. -/
def Obligations.SetPcIsChecked : Prop :=
  (∀ (s : State) (v : Int),
    (v < 0 ∨ (s.capacity : Int) ≤ v → s.setPc v = .error (.addressOutOfRange v)) ∧
    (0 ≤ v → v < (s.capacity : Int) →
      ∃ t : State, s.setPc v = .ok t ∧ (t.pc : Int) = v ∧
        (v = (s.capacity : Int) - 1 → t.halted = true) ∧ (v ≠ (s.capacity : Int) - 1 → t.halted = s.halted) ∧
        t.acc = s.acc ∧ t.capacity = s.capacity ∧ t.waiting = s.waiting ∧ t.fault = s.fault ∧ t.mem = s.mem ∧
        t.written = s.written ∧ t.input = s.input ∧ t.output = s.output ∧ t.errlog = s.errlog)) ∧
  ∀ s t : State, step s = .next t → t.pc ≠ s.pc →
    ∃ u : State, s.setPc (t.pc : Int) = .ok u ∧ u.pc = t.pc ∧ (u.halted = true → t.halted = true)

/-- 41_sequencer R127: the transitions to Halted are exactly (a) HALT executes, (b) `pc` is set to `N-1`, (c) `pc` is out
of range at the start of the step; and there is no transition out of Halted. That a step which latches a fault does not
halt (R127: "is not a halt") speaks of the latch, decision D10 (notes/assumptions/14.md). Stated of a machine that is not already at
the sentinel while running (10_state R33 I2, StepKeepsInvariant). -/
def Obligations.HaltedByThreeEventsOnly : Prop :=
  ∀ s t : State, s.fault = none → (s.pc + 1 = s.capacity → s.halted = true) → step s = .next t →
    (s.halted = false →
      (t.halted = true ↔
        (s.pc < s.capacity ∧ ∃ a, decode (s.mem.read s.pc) = .halt a) ∨ t.pc + 1 = s.capacity ∨ s.capacity ≤ s.pc) ∧
      (t.fault ≠ none → t.halted = false)) ∧
    (s.halted = true → t = s)

/-- 70_reset_and_hazards R216: whatever step brings `pc` to `N-1`, the machine is halted there and never executes the
Word at `N-1`: the next step changes nothing. -/
def Obligations.SentinelIsNeverExecuted : Prop :=
  ∀ s t : State, s.Inv → step s = .next t → t.pc = s.capacity - 1 → t.halted = true ∧ step t = .next t

/-- 45_control R174: from power-on with empty memory every step is a NOOP: after `k` steps `pc = k`, and after exactly
`N-1` steps the machine halts at `N-1` with nothing else changed. The run is one for which the host names no start, so it
begins at 0 (41_sequencer R128, decision D20). -/
def Obligations.EmptyMemoryRunsToSentinel : Prop :=
  ∀ n : Nat, Config.CapacityOk n →
    hostRun (State.powerOn n) (runStart none) none (n - 1) = ⟨.ended, { State.powerOn n with pc := n - 1, halted := true }, []⟩ ∧
    ∀ k : Nat, k < n - 1 → hostRun (State.powerOn n) (runStart none) none k = ⟨.paused, { State.powerOn n with pc := k }, []⟩

/-- 41_sequencer R129 (a) to (c), R128: `Run` at the sentinel, at a start out of range, and on a halted or faulted machine,
executes nothing. The latch and its effect on `Run` are the spec's decision D10. -/
def Obligations.RunCornerCases : Prop :=
  ∀ (s : State) (start : Int) (trace : Option Int) (budget : Nat),
    (s.fault ≠ none → (hostRun s start trace budget).final = s) ∧
    (s.fault = none → (start < 0 ∨ (s.capacity : Int) ≤ start) →
      (hostRun s start trace budget).final = faulted s .addressOutOfRange (some start)) ∧
    (s.fault = none → 0 ≤ start → start < (s.capacity : Int) → (s.halted = true ∨ start = (s.capacity : Int) - 1) →
      (hostRun s start trace budget).final = { s with pc := start.toNat, halted := true })

/-! Memory (20_memory.md). -/

/-- 20_memory R46 to R48: the bounds check on every read, write and append, what a read returns (`+000000` for a cell
never written), and that after a write the cell reads the Word written and every other cell is as before. -/
def Obligations.MemoryAccessIsChecked : Prop :=
  ∀ (s : State) (a : Int) (w : Word),
    ((a < 0 ∨ (s.capacity : Int) ≤ a) →
      s.memRead a = .error (.addressOutOfRange a) ∧ s.memWrite a w = .error (.addressOutOfRange a)) ∧
    (s.capacity ≤ hostCursor s → hostWriteNext s w = .error (.addressOutOfRange (hostCursor s))) ∧
    (0 ≤ a → a < (s.capacity : Int) →
      s.memRead a = .ok (s.mem.read a.toNat) ∧
      (s.Inv → a.toNat ∉ s.written → s.memRead a = .ok Word.zero) ∧
      ∃ t : State, s.memWrite a w = .ok t ∧ t.memRead a = .ok w ∧ a.toNat ∈ t.written ∧ SameMemoryExcept a s t ∧
        SameStreams s t ∧ SameStatus s t ∧ t.acc = s.acc ∧ t.pc = s.pc ∧ t.halted = s.halted)

/-- 20_memory R61: self-modifying code: a running STORE whose operand is the next address is followed by the execution of
the Word it stored, with nothing in between. -/
def Obligations.StoredWordIsExecutedNext : Prop :=
  ∀ (s : State), s.fault = none → s.halted = false → s.pc + 2 < s.capacity →
    decode (s.mem.read s.pc) = .store (s.pc + 1) →
    ∃ t : State, step s = .next t ∧ t.acc = s.acc ∧ t.pc = s.pc + 1 ∧ step t = exec (decode s.acc) t

/-- 10_state R27: no instruction's result depends on the `written` bits: two states that differ only in them step to
states that differ only in them. -/
def Obligations.WrittenBitsAreInvisible : Prop :=
  ∀ (s t u : State) (l : Marks), step s = .next t → step { s with written := l } = .next u →
    { u with written := t.written } = t

/-! Data movement (43_load_store.md, 42_io.md). -/

/-- 43_load_store R150: LOAD copies the cell exactly; memory, streams and status are as before and `pc` advances. -/
def Obligations.LoadCopiesCell : Prop :=
  ∀ (s : State) (a : Nat), a < s.capacity → s.pc + 1 < s.capacity →
    ∃ t : State, exec (.load a) s = .next t ∧ t.acc = s.mem.read a ∧ Advanced s t ∧ SameMemory s t ∧ SameStreams s t ∧
      SameStatus s t

/-- 43_load_store R151, 20_memory R48: STORE writes the accumulator to the cell, marks it written, and changes nothing
else but `pc`. -/
def Obligations.StoreWritesCell : Prop :=
  ∀ (s : State) (a : Nat), a < s.capacity → s.pc + 1 < s.capacity →
    ∃ t : State, exec (.store a) s = .next t ∧ t.mem.read a = s.acc ∧ a ∈ t.written ∧ t.acc = s.acc ∧ Advanced s t ∧
      SameMemoryExcept (effectiveAddress a) s t ∧ SameStreams s t ∧ SameStatus s t

/-- 42_io R141: WRITE appends the cell's Word to `out` and changes nothing else but `pc`. -/
def Obligations.WriteEmitsCell : Prop :=
  ∀ (s : State) (a : Nat), a < s.capacity → s.pc + 1 < s.capacity →
    ∃ t : State, exec (.write a) s = .next t ∧ t.output = s.output ++ [s.mem.read a] ∧ t.acc = s.acc ∧ Advanced s t ∧
      SameMemory s t ∧ t.input = s.input ∧ t.errlog = s.errlog ∧ SameStatus s t

/-! Arithmetic (44_arithmetic.md, 40_word_arithmetic.md). -/

/-- 44_arithmetic R160: ADD: `acc` becomes the Word of the exact sum. -/
def Obligations.AddWritesTruncatedSum : Prop :=
  ∀ (s : State) (a : Nat), a < s.capacity → s.pc + 1 < s.capacity →
    ∃ t : State, exec (.add a) s = .next t ∧ TruncatesTo (wordVal s.acc + wordVal (s.mem.read a)) t.acc ∧
      Advanced s t ∧ SameMemory s t ∧ SameStreams s t ∧ SameStatus s t

/-- 44_arithmetic R161: SUBTRACT: `acc` becomes the Word of the exact difference `acc - mem[a]`. -/
def Obligations.SubtractWritesTruncatedDifference : Prop :=
  ∀ (s : State) (a : Nat), a < s.capacity → s.pc + 1 < s.capacity →
    ∃ t : State, exec (.subtract a) s = .next t ∧ TruncatesTo (wordVal s.acc - wordVal (s.mem.read a)) t.acc ∧
      Advanced s t ∧ SameMemory s t ∧ SameStreams s t ∧ SameStatus s t

/-- 44_arithmetic R162: MULTIPLY: `acc` becomes the Word of the exact product. -/
def Obligations.MultiplyWritesTruncatedProduct : Prop :=
  ∀ (s : State) (a : Nat), a < s.capacity → s.pc + 1 < s.capacity →
    ∃ t : State, exec (.multiply a) s = .next t ∧ TruncatesTo (wordVal s.acc * wordVal (s.mem.read a)) t.acc ∧
      Advanced s t ∧ SameMemory s t ∧ SameStreams s t ∧ SameStatus s t

/-- 44_arithmetic R163, 40_word_arithmetic R111: DIVIDE by a divisor of value other than 0: `acc` becomes the Word of the
floor quotient (decision D6, notes/assumptions/12.md), which never overflows; a zero quotient is `+000000` (D5). -/
def Obligations.DivideWritesFloorQuotient : Prop :=
  ∀ (s : State) (a : Nat), a < s.capacity → s.pc + 1 < s.capacity → wordVal (s.mem.read a) ≠ 0 →
    ∃ t : State, exec (.divide a) s = .next t ∧
      FloorQuotient (wordVal s.acc) (wordVal (s.mem.read a)) (wordVal t.acc) ∧
      (wordVal t.acc = 0 → t.acc.sign = .plus) ∧ Advanced s t ∧ SameMemory s t ∧ SameStreams s t ∧ SameStatus s t

/-- 40_word_arithmetic R106: overflow is never an error: whatever the operands, ADD, SUBTRACT and MULTIPLY complete, raise
nothing and leave no record but the accumulator's value: nothing but `acc`, `pc` and `halted` changes. -/
def Obligations.OverflowIsSilent : Prop :=
  ∀ (s : State) (a : Nat) (i : Instr), i ∈ [Instr.add a, .subtract a, .multiply a] → a < s.capacity →
    s.pc + 1 < s.capacity →
    ∃ t : State, exec i s = .next t ∧ t.fault = s.fault ∧
      t = { s with acc := t.acc, pc := s.pc + 1, halted := t.halted } ∧ (t.halted = true ↔ s.halted = true ∨ s.pc + 2 = s.capacity)

/-- 40_word_arithmetic R112 (5), R105: Add, Sub and Mul return `-000000` exactly when their exact result is negative and
overflows to six zero digits, as `Trunc` does of any integer, and Div never does (decisions D4, D5,
notes/assumptions/11.md). -/
def Obligations.NegativeZeroOnlyFromOverflow : Prop :=
  (∀ r : Int, trunc r = ⟨.minus, 0⟩ ↔ OverflowsToNegativeZero r) ∧
  ∀ a b : Word,
    (aluAdd a b = ⟨.minus, 0⟩ ↔ OverflowsToNegativeZero (wordVal a + wordVal b)) ∧
    (aluSub a b = ⟨.minus, 0⟩ ↔ OverflowsToNegativeZero (wordVal a - wordVal b)) ∧
    (aluMul a b = ⟨.minus, 0⟩ ↔ OverflowsToNegativeZero (wordVal a * wordVal b)) ∧
    aluDiv a b ≠ .ok ⟨.minus, 0⟩

/-- 40_word_arithmetic R107, R108: ADD overflows exactly when both operands have the same sign and the magnitudes sum to
1000000 or more, SUBTRACT exactly when the signs differ and they do; otherwise the result has the exact value. -/
def Obligations.OverflowConditionOfAddAndSub : Prop :=
  ∀ a b : Word,
    (wordVal (aluAdd a b) = wordVal a + wordVal b ↔ ¬(a.sign = b.sign ∧ 1000000 ≤ a.mag.val + b.mag.val)) ∧
    (wordVal (aluSub a b) = wordVal a - wordVal b ↔ ¬(a.sign ≠ b.sign ∧ 1000000 ≤ a.mag.val + b.mag.val))

/-- 40_word_arithmetic R110: comparison is by numeric value, and the two conditions in terms of sign and magnitude. -/
def Obligations.ComparisonIsByValue : Prop :=
  ∀ a b : Word,
    (wordEq a b = true ↔ wordVal a = wordVal b) ∧ (wordLt a b = true ↔ wordVal a < wordVal b) ∧
    (wordLe a b = true ↔ wordVal a ≤ wordVal b) ∧
    (isNeg a = true ↔ wordVal a < 0) ∧ (isNeg a = true ↔ a.sign = .minus ∧ a.mag.val ≠ 0) ∧
    (isZero a = true ↔ wordVal a = 0) ∧ (isZero a = true ↔ a.mag.val = 0) ∧
    wordEq ⟨.plus, 0⟩ ⟨.minus, 0⟩ = true ∧ wordLt ⟨.minus, 0⟩ ⟨.plus, 0⟩ = false

/-! Control (45_control.md). -/

/-- 45_control R170, 41_sequencer R124: after BRANCH to `a` in range, `pc = a` and not `a + 1`, for every `a`, the branch's
own address among them (decision D9); the machine halts when `a = N-1`; nothing else changes. -/
def Obligations.BranchGoesToTarget : Prop :=
  ∀ (s : State) (a : Nat), a < s.capacity →
    ∃ t : State, exec (.branch a) s = .next t ∧ JumpedTo a s t ∧ t.acc = s.acc ∧ SameMemory s t ∧ SameStreams s t ∧
      SameStatus s t

/-- 45_control R171: BRANCHNEG is taken exactly when the value of `acc` is below 0 (`-000000` is not); not taken, it
advances, whatever its operand. -/
def Obligations.BranchnegTestsSign : Prop :=
  ∀ (s : State) (a : Nat), (wordVal s.acc < 0 → a < s.capacity) → (0 ≤ wordVal s.acc → s.pc + 1 < s.capacity) →
    ∃ t : State, exec (.branchneg a) s = .next t ∧
      (wordVal s.acc < 0 → JumpedTo a s t) ∧ (0 ≤ wordVal s.acc → Advanced s t) ∧
      t.acc = s.acc ∧ SameMemory s t ∧ SameStreams s t ∧ SameStatus s t

/-- 45_control R172: BRANCHZERO is taken exactly when the value of `acc` is 0, with either sign; not taken, it advances,
whatever its operand. -/
def Obligations.BranchzeroTestsZero : Prop :=
  ∀ (s : State) (a : Nat), (s.acc.mag.val = 0 → a < s.capacity) → (s.acc.mag.val ≠ 0 → s.pc + 1 < s.capacity) →
    ∃ t : State, exec (.branchzero a) s = .next t ∧
      (s.acc.mag.val = 0 → JumpedTo a s t) ∧ (s.acc.mag.val ≠ 0 → Advanced s t) ∧
      t.acc = s.acc ∧ SameMemory s t ∧ SameStreams s t ∧ SameStatus s t

/-- 45_control R173: HALT sets `halted`, whatever its operand, and `pc` still advances (decision D8,
notes/assumptions/13.md). -/
def Obligations.HaltSetsHalted : Prop :=
  ∀ (s : State) (a : Nat), s.pc + 1 < s.capacity →
    ∃ t : State, exec (.halt a) s = .next t ∧ t.halted = true ∧ t.pc = s.pc + 1 ∧ t.acc = s.acc ∧ SameMemory s t ∧
      SameStreams s t ∧ SameStatus s t

/-- 45_control R174: NOOP has no effect but the advance, whatever its operand. -/
def Obligations.NoopOnlyAdvances : Prop :=
  ∀ (s : State) (a : Nat), s.pc + 1 < s.capacity →
    ∃ t : State, exec (.noop a) s = .next t ∧ Advanced s t ∧ t.acc = s.acc ∧ SameMemory s t ∧ SameStreams s t ∧
      SameStatus s t

/-! READ and the input wait (42_io R140, 60_exceptions R196). -/

/-- 42_io R140: READ takes lines until one parses: the malformed lines go to `errlog`, the Word to the cell, `waiting` is
false afterwards, and `acc` and `out` are as before (decisions D12, D13). -/
def Obligations.ReadStoresFirstValidLine : Prop :=
  ∀ (s : State) (a : Nat) (bad rest : List Text) (line : Text) (w : Word),
    s.input = bad ++ line :: rest → AllMalformed bad → parseWord line = some w → a < s.capacity → s.pc + 1 < s.capacity →
    ∃ t : State, exec (.read a) s = .next t ∧ t.mem.read a = w ∧ a ∈ t.written ∧
      SameMemoryExcept (effectiveAddress a) s t ∧ t.input = rest ∧ t.errlog = s.errlog ++ bad ∧ t.output = s.output ∧
      t.acc = s.acc ∧ t.waiting = false ∧ t.fault = s.fault ∧ t.capacity = s.capacity ∧ Advanced s t

/-- 42_io R140, 60_exceptions R196: with no line that parses, READ consumes the malformed lines and waits: `waiting` is
true and nothing else changes, `pc` among it (decisions D13, D15; the stopped READ as a next state is
notes/assumptions/4.md). -/
def Obligations.ReadWaitsForInput : Prop :=
  ∀ (s : State) (a : Nat), AllMalformed s.input →
    exec (.read a) s = .next { s with waiting := true, input := [], errlog := s.errlog ++ s.input }

/-- 42_io R140, 60_exceptions R187: a READ whose operand is out of range faults only after it has consumed its input: the
parsed Word is lost and memory is as before (decisions D10, D12). -/
def Obligations.ReadOutOfRangeLosesInput : Prop :=
  ∀ (s : State) (a : Nat) (bad rest : List Text) (line : Text) (w : Word),
    s.input = bad ++ line :: rest → AllMalformed bad → parseWord line = some w → s.capacity ≤ a →
    exec (.read a) s =
      .next { faulted s .addressOutOfRange (some a) with input := rest, errlog := s.errlog ++ bad }

/-- 60_exceptions R196, 41_sequencer R131: a READ that found no valid line makes no progress by itself; a line the host
appends that parses completes it; and a `Stop` abandons it, so that the next step starts the READ afresh
(decisions D13, D14, D15). -/
def Obligations.InputWaitEndsOnlyByHost : Prop :=
  ∀ (s : State) (a : Nat) (line : Text) (w : Word),
    s.fault = none → s.halted = false → decode (s.mem.read s.pc) = .read a → a < s.capacity → s.pc + 1 < s.capacity →
    AllMalformed s.input → parseWord line = some w →
    ∃ t : State, step s = .next t ∧ t.waiting = true ∧ t.pc = s.pc ∧ step t = .next t ∧
      (∃ u : State, step (hostAppend t line) = .next u ∧ u.mem.read a = w ∧ u.waiting = false ∧ u.pc = s.pc + 1 ∧
        u.errlog = s.errlog ++ s.input ∧ u.input = []) ∧
      (hostStop t).waiting = false ∧ (hostStop t).pc = s.pc ∧ step (hostStop t) = .next t

/-- 10_state R23: "The only suspension point is the READ instruction": no other instruction ever sets `waiting`. -/
def Obligations.OnlyReadWaits : Prop :=
  ∀ (i : Instr) (s t : State), exec i s = .next t → s.waiting = false → t.waiting = true → ∃ a, i = .read a

/-! Faults (60_exceptions.md). -/

/-- 60_exceptions R182, R186, R187: an operand `>= N` used as a memory address faults with `AddressOutOfRange` and changes
nothing else, for every instruction that reaches memory but READ; DIVIDE does so whatever a divisor would be (R188).
The latch is the spec's decision D10 (notes/assumptions/14.md). -/
def Obligations.MemoryOperandOutOfRangeFaults : Prop :=
  ∀ (s : State) (a : Nat) (i : Instr),
    i ∈ [Instr.write a, .load a, .store a, .add a, .subtract a, .multiply a, .divide a] → s.capacity ≤ a →
    exec i s = .next (faulted s .addressOutOfRange (some a))

/-- 60_exceptions R182, 45_control R170 to R172: an operand `>= N` used as the target of a taken branch faults with
`AddressOutOfRange`, `pc` staying where it is (decision D10). -/
def Obligations.BranchTargetOutOfRangeFaults : Prop :=
  ∀ (s : State) (a : Nat) (i : Instr), s.capacity ≤ a →
    (i = .branch a ∨ (i = .branchneg a ∧ wordVal s.acc < 0) ∨ (i = .branchzero a ∧ wordVal s.acc = 0)) →
    exec i s = .next (faulted s .addressOutOfRange (some a))

/-- 44_arithmetic R163, 60_exceptions R184: DIVIDE by a cell of value 0, of either sign and for any dividend, faults with
`DivisionByZero`, and `acc`, `pc`, memory and `halted` are as before (decision D10). -/
def Obligations.DivideByZeroFaults : Prop :=
  ∀ (s : State) (a : Nat), a < s.capacity → (s.mem.read a).mag.val = 0 →
    exec (.divide a) s = .next (faulted s .divisionByZero none)

/-- 60_exceptions R186, R187: faults are precise: an instruction that faults has changed nothing but the latch, `waiting`
and, for READ, the consumed input and its `errlog` entries (decision D10). Stated where the advance stays in range, which
10_state R33 says of every instruction that executes. -/
def Obligations.FaultsArePrecise : Prop :=
  ∀ (i : Instr) (s t : State), s.fault = none → s.pc + 1 < s.capacity → exec i s = .next t → t.fault ≠ none →
    t.pc = s.pc ∧ t.acc = s.acc ∧ SameMemory s t ∧ t.halted = s.halted ∧ t.output = s.output ∧ t.waiting = false ∧
    ((∀ a, i ≠ .read a) → t.input = s.input ∧ t.errlog = s.errlog)

/-- 60_exceptions R180, R182 to R184: the only kinds an instruction raises: `AddressOutOfRange` with the operand as info,
never from HALT or NOOP, and `DivisionByZero` without info, from DIVIDE only; the latch names the instruction's address.
Stated where the advance stays in range (10_state R33). The latch is decision D10. -/
def Obligations.InstructionsRaiseTwoKinds : Prop :=
  ∀ (i : Instr) (s t : State) (f : FaultLatch), s.fault = none → s.pc + 1 < s.capacity → exec i s = .next t →
    t.fault = some f →
    f.addr = s.pc ∧
    ((f.kind = .addressOutOfRange ∧ f.info = some (i.operand : Int) ∧ s.capacity ≤ i.operand ∧
        (∀ a, i ≠ .halt a) ∧ (∀ a, i ≠ .noop a)) ∨
      (f.kind = .divisionByZero ∧ f.info = none ∧ ∃ a, i = .divide a ∧ wordVal (s.mem.read a) = 0))

/-! Frames: what an instruction leaves unchanged whenever it answers a next state. -/

/-- 43_load_store R150, 44_arithmetic R160 to R163: LOAD, ADD, SUBTRACT, MULTIPLY and DIVIDE write no register but `acc`
and `pc`: every cell of memory, every `written` bit and every stream is as before. -/
def Obligations.AccumulatorInstructionsFrame : Prop :=
  ∀ (s t : State) (a : Nat) (i : Instr), i ∈ [Instr.load a, .add a, .subtract a, .multiply a, .divide a] →
    exec i s = .next t → SameMemory s t ∧ SameStreams s t ∧ SameHaltedOrSentinel s t ∧ SameStatusOrFault s t

/-- 45_control R170 to R174: BRANCH, BRANCHNEG, BRANCHZERO, HALT and NOOP change `pc`, `halted` and the latch at most. -/
def Obligations.ControlInstructionsFrame : Prop :=
  ∀ (s t : State) (a : Nat) (i : Instr), i ∈ [Instr.branch a, .branchneg a, .branchzero a, .halt a, .noop a] →
    exec i s = .next t →
    t.acc = s.acc ∧ SameMemory s t ∧ SameStreams s t ∧ (i ≠ .halt a → SameHaltedOrSentinel s t) ∧ SameStatusOrFault s t

/-- 42_io R141: WRITE changes no register but `pc` and stores nothing: `acc`, memory, `in` and `errlog` are as before, and
`out` is as before or has the one Word appended. -/
def Obligations.WriteFrame : Prop :=
  ∀ (s t : State) (a : Nat), exec (.write a) s = .next t →
    t.acc = s.acc ∧ SameMemory s t ∧ t.input = s.input ∧ t.errlog = s.errlog ∧
    (t.output = s.output ∨ t.output = s.output ++ [s.mem.read a]) ∧ SameHaltedOrSentinel s t ∧ SameStatusOrFault s t

/-- 43_load_store R151: STORE changes no register but `pc`, no stream, and no cell but the one at its effective address. -/
def Obligations.StoreFrame : Prop :=
  ∀ (s t : State) (a : Nat), exec (.store a) s = .next t →
    t.acc = s.acc ∧ SameMemoryExcept (effectiveAddress a) s t ∧ SameStreams s t ∧ SameHaltedOrSentinel s t ∧
    SameStatusOrFault s t

/-- 42_io R140: READ changes neither `acc` nor `out` nor any cell but the one at its effective address; it takes lines from
the front of `in` only, and `errlog` only grows, by lines it took. -/
def Obligations.ReadFrame : Prop :=
  ∀ (s t : State) (a : Nat), exec (.read a) s = .next t →
    t.acc = s.acc ∧ t.output = s.output ∧ t.capacity = s.capacity ∧ SameMemoryExcept (effectiveAddress a) s t ∧
    SameHaltedOrSentinel s t ∧ (t.fault = s.fault ∨ ∃ kind info, t.fault = some ⟨kind, s.pc, info⟩) ∧
    ∃ taken bad : List Text, s.input = taken ++ t.input ∧ t.errlog = s.errlog ++ bad ∧ (bad = taken ∨ ∃ line, taken = bad ++ [line])

/-! The text codec (30_encoding.md sections 3 to 5). -/

/-- 30_encoding R78: the canonical form is the sign and the magnitude as six digits, and it and `ParseWord` are inverse to
each other on all Words and all canonical strings. -/
def Obligations.CanonicalTextRoundTrips : Prop :=
  (∀ w : Word, ∃ digits : Text, rawForm w = signChar w.sign :: digits ∧ digits.length = 6 ∧
    (∀ c ∈ digits, isDigitChar c = true) ∧ decimalValue digits = w.mag.val ∧ parseWord (rawForm w) = some w) ∧
  ∀ (sg : Sign) (digits : Text), digits.length = 6 → (∀ c ∈ digits, isDigitChar c = true) →
    ∃ w : Word, parseWord (signChar sg :: digits) = some w ∧ rawForm w = signChar sg :: digits

/-- 30_encoding R80, R84, R85: `ParseWord` accepts exactly the texts with an optional sign and a body of six digits, or of
four, and gives the Word they spell (the trimmed characters are decision D18, the four-digit test D19). -/
def Obligations.ParserAcceptsExactly : Prop := ∀ (text : Text) (w : Word), parseWord text = some w ↔ Spells text w

/-- 30_encoding R83: an integer from -999999 to 999999 becomes the Word of its value; any other is `MalformedWord`; and
either way the result is what the Word constructor answers on the integer's zero-padded text (decision D29). The text of an
integer of more than six digits, sign and all its digits, is the model's choice (notes/assumptions/24.md). -/
def Obligations.IntegersGoThroughTheirText : Prop :=
  ∀ r : Int,
    (r.natAbs ≤ 999999 → ∃ w : Word, fromInteger r = .ok w ∧ wordVal w = r) ∧
    (999999 < r.natAbs → fromInteger r = .error (.malformedWord (integerText r))) ∧
    wordOfText (integerText r) = fromInteger r

/-! The host's operations (20_memory section 3, 70_reset_and_hazards.md). -/

/-- 20_memory R52: `WriteNext` writes at the append cursor, one past the highest written address (0 if none), and moves it
by one; it fails exactly when the cell `N-1` is written, with `AddressOutOfRange(N)`. -/
def Obligations.WriteNextAppends : Prop :=
  ∀ (s : State) (w : Word), s.Inv →
    (∀ a ∈ s.written, a < hostCursor s) ∧ (hostCursor s = 0 ∨ hostCursor s - 1 ∈ s.written) ∧
    hostCursor s ≤ s.capacity ∧
    (s.capacity - 1 ∉ s.written →
      ∃ t : State, hostWriteNext s w = .ok t ∧ t.mem.read (hostCursor s) = w ∧ hostCursor t = hostCursor s + 1 ∧
        SameMemoryExcept (hostCursor s) s t) ∧
    (s.capacity - 1 ∈ s.written → hostWriteNext s w = .error (.addressOutOfRange s.capacity))

/-- 20_memory R53: `Clear(seq)`: too long a sequence changes nothing (decision D17); otherwise cells `0..len-1` hold it, every
other cell is `+000000` and unwritten, `cursor` and `Len()` are its length, and no CPU state or stream changes. -/
def Obligations.ClearReloadsStore : Prop :=
  ∀ (s : State) (ws : List Word),
    (s.capacity < ws.length → hostClear s ws = .error (.addressOutOfRange ws.length)) ∧
    (ws.length ≤ s.capacity →
      ∃ t : State, hostClear s ws = .ok t ∧ (∀ a : Nat, t.mem.read a = ws.getD a Word.zero) ∧
        (∀ a : Nat, a ∈ t.written ↔ a < ws.length) ∧ hostCursor t = ws.length ∧ hostLen t = ws.length ∧
        SameStreams s t ∧ SameStatus s t ∧ t.acc = s.acc ∧ t.pc = s.pc ∧ t.halted = s.halted)

/-- 20_memory R55, R56: `Preview` returns `min(size, N)` contiguous addresses within `[0, N)`, each with its cell's Word,
and the centre is among them when it is in range and the size is positive. The lowest is `center - n div 2` where that
window fits; otherwise the window is shifted to begin at 0 or to end at `N-1` (decision D16). -/
def Obligations.PreviewIsClippedWindow : Prop :=
  ∀ (s : State) (center size : Int),
    (size ≤ 0 → hostPreview s center size = []) ∧
    (0 < size → 0 < s.capacity →
      ∃ lo : Nat, lo + (hostPreview s center size).length ≤ s.capacity ∧
        ((hostPreview s center size).length : Int) = windowSize s size ∧
        (0 ≤ unshiftedLow s center size → unshiftedLow s center size + windowSize s size ≤ s.capacity →
          (lo : Int) = unshiftedLow s center size) ∧
        (unshiftedLow s center size < 0 → lo = 0) ∧
        ((s.capacity : Int) < unshiftedLow s center size + windowSize s size → lo + windowSize s size = s.capacity) ∧
        (∀ k : Nat, k < (hostPreview s center size).length →
          (hostPreview s center size)[k]? = some (lo + k, s.mem.read (lo + k))) ∧
        (0 ≤ center → center < (s.capacity : Int) →
          (lo : Int) ≤ center ∧ center < lo + (hostPreview s center size).length))

/-- 70_reset_and_hazards R213: the loader, on a machine whose memory is empty: if every line parses and there are at most
`N`, line `i` is in cell `i`, every other cell is `+000000`, and `cursor` is the number of lines. -/
def Obligations.LoaderFillsFromZero : Prop :=
  ∀ (s : State) (lines : List Text) (ws : List Word), s.mem = [] → s.written = [] → lines.length ≤ s.capacity →
    lines.map parseWord = ws.map some →
    ∃ t : State, loadLines s lines = (t, none) ∧ (∀ a : Nat, t.mem.read a = ws.getD a Word.zero) ∧
      hostCursor t = lines.length ∧ SameStreams s t ∧ SameStatus s t ∧ t.acc = s.acc ∧ t.pc = s.pc ∧ t.halted = s.halted

/-- 70_reset_and_hazards R210, 60_exceptions R189: `Reset()` restores the CPU's construction state, touches neither memory
nor the streams, and makes a halted or faulted machine run again from address 0 (decisions D10, D13, D22). -/
def Obligations.ResetRunsAgainFromZero : Prop :=
  ∀ s : State, s.Inv →
    s.cpuReset.Inv ∧ s.cpuReset.mem = s.mem ∧ s.cpuReset.written = s.written ∧ SameStreams s s.cpuReset ∧
    s.cpuReset.acc = Word.zero ∧ s.cpuReset.pc = 0 ∧ s.cpuReset.halted = false ∧ s.cpuReset.waiting = false ∧
    s.cpuReset.fault = none ∧ step s.cpuReset = exec (decode (s.mem.read 0)) s.cpuReset
end

