-- ==== Sys2Proof/Tests/Slice0.lean ====
section
/-! SUPPORT. Slice0.lean: the model's own tests, each one small step or call with its expected result taken from
spec/95_test_vectors.md (or the rule named), and a witness for the hypotheses of every statement that has some. -/

namespace Sys2Proof.Tests

open Sys2Proof Sys2Proof.Machine Sys2Proof.Claims

/-- A Word with sign plus. -/
def pos (m : Fin 1000000) : Word := ⟨.plus, m⟩

/-- A Word with sign minus. -/
def neg (m : Fin 1000000) : Word := ⟨.minus, m⟩

/-- A machine of 100 cells with some cells filled, about to execute at `pc`. -/
def machine (cells : List (Nat × Word)) (acc : Word) (pc : Nat) : State :=
  { State.powerOn 100 with mem := cells, written := cells.map Prod.fst, acc := acc, pc := pc }

/-- The same with lines of input. -/
def withInput (s : State) (lines : List String) : State := { s with input := lines.map String.toList }

/-! WellFormed: each check refuses an operand of four digits. -/

theorem test_wellFormed_refuses : [Instr.read 1000, .write 1000, .load 1000, .store 1000, .add 1000, .subtract 1000,
    .multiply 1000, .divide 1000, .branch 1000, .branchneg 1000, .branchzero 1000, .halt 1000, .noop 1000].all
      (fun i => !i.wellFormed) = true := by decide

theorem test_wellFormed_accepts : [Instr.read 999, .write 0, .load 999, .store 0, .add 999, .subtract 0,
    .multiply 999, .divide 0, .branch 999, .branchneg 0, .branchzero 999, .halt 0, .noop 999].all
      (fun i => i.wellFormed) = true := by decide

/-! Decoding: one Word of each instruction, from 30_encoding R75 and 95_test_vectors 2.1 and part 3. -/

theorem test_decode_read : decode (pos 10999) = .read 999 := by decide
theorem test_decode_write : decode (pos 11007) = .write 7 := by decide
theorem test_decode_load : decode (pos 20005) = .load 5 := by decide
theorem test_decode_store : decode (neg 21099) = .store 99 := by decide
theorem test_decode_add : decode (pos 30006) = .add 6 := by decide
theorem test_decode_subtract : decode (pos 31011) = .subtract 11 := by decide
theorem test_decode_multiply : decode (pos 32006) = .multiply 6 := by decide
theorem test_decode_divide : decode (pos 33000) = .divide 0 := by decide
theorem test_decode_branch : decode (pos 40001) = .branch 1 := by decide
theorem test_decode_branchneg : decode (pos 41008) = .branchneg 8 := by decide
theorem test_decode_branchzero : decode (pos 42007) = .branchzero 7 := by decide
theorem test_decode_halt : decode (neg 43123) = .halt 123 := by decide
theorem test_decode_noop : decode (pos 110007) = .noop 7 := by decide
theorem test_decode_noop_fields : [pos 44000, pos 9999, pos 100000, pos 999999, pos 0, neg 0].all
    (fun w => (decode w).name == "NOOP") = true := by decide

/-- 30_encoding R90: the three packed examples. -/
theorem test_pack : pack (pos 10007) = 0x0010007 ∧ pack (neg 43000) = 0x1043000 ∧ pack (pos 999999) = 0x0999999 := by
  decide

/-- 30_encoding R90: a nibble above nine, and a bit above the sign, are no Word. -/
theorem test_unpack_refuses : decodeBits 0x00A0000 = .error .nibbleAboveNine ∧
    decodeBits 0x2000000 = .error .bitAboveSign := by decide

/-- The rows of spec/opcode_table.json, every operand bit zero. -/
theorem test_decodeTableWord : [0x10000, 0x11000, 0x20000, 0x21000, 0x30000, 0x31000, 0x32000, 0x33000, 0x40000,
    0x41000, 0x42000, 0x43000, 0].map (decodeTableWord 32) =
    [some (.read 0), some (.write 0), some (.load 0), some (.store 0), some (.add 0), some (.subtract 0),
      some (.multiply 0), some (.divide 0), some (.branch 0), some (.branchneg 0), some (.branchzero 0), some (.halt 0),
      some (.noop 0)] := by decide

/-- A placed word is the one the next step fetches. -/
theorem test_withFetchWord : (State.reset.withFetchWord 32 0x1043123).nextInstr = .halt 123 := by decide

/-! One step (95_test_vectors 2.4 to 2.8). -/

theorem test_read : let t := hostStep (withInput (machine [(0, pos 10007)] (pos 0) 0) ["abc", "+1234"])
    t.mem.read 7 = pos 1234 ∧ t.errlog = ["abc".toList] ∧ t.input = [] ∧ t.pc = 1 ∧ t.waiting = false ∧
      hostCursor t = 8 := by decide

theorem test_read_waits : let t := hostStep (withInput (machine [(0, pos 10007)] (pos 0) 0) ["bad"])
    t.waiting = true ∧ t.pc = 0 ∧ t.errlog = ["bad".toList] ∧ t.input = [] ∧ t.halted = false ∧ t.fault = none ∧
      7 ∉ t.written ∧ (hostStep (hostAppend t "+000009".toList)).mem.read 7 = pos 9 := by decide

theorem test_read_out_of_range :
    let t := hostStep (withInput (machine [(0, pos 10100)] (pos 0) 0) ["zz", "+000001", "+000002"])
    t.fault = some ⟨.addressOutOfRange, 0, some 100⟩ ∧ t.errlog = ["zz".toList] ∧ t.input = ["+000002".toList] ∧
      t.pc = 0 := by decide

theorem test_write : let t := hostStep (machine [(0, pos 11005), (5, neg 0)] (pos 0) 0)
    t.output = [neg 0] ∧ t.pc = 1 := by decide

theorem test_write_out_of_range : let t := hostStep (machine [(0, pos 11100)] (pos 0) 0)
    t.fault = some ⟨.addressOutOfRange, 0, some 100⟩ ∧ t.output = [] := by decide

theorem test_load : let t := hostStep (machine [(0, pos 20005), (5, neg 0)] (pos 7) 0)
    t.acc = neg 0 ∧ t.pc = 1 := by decide

theorem test_load_unwritten : let t := hostStep (machine [(0, pos 20050)] (neg 123) 0)
    t.acc = pos 0 ∧ 50 ∉ t.written := by decide

theorem test_store : let t := hostStep (machine [(3, pos 21009)] (pos 15) 3)
    t.mem.read 9 = pos 15 ∧ t.pc = 4 ∧ t.acc = pos 15 ∧ hostCursor t = 10 := by decide

/-- A zero stored over the instruction itself is not listed, but is written. -/
theorem test_store_zero : let t := hostStep (machine [(0, pos 21000)] (pos 0) 0)
    t.mem = [] ∧ t.written = [0] ∧ t.pc = 1 := by decide

theorem test_add : (hostStep (machine [(0, pos 30010), (10, pos 2)] (pos 999999) 0)).acc = pos 1 ∧
    (hostStep (machine [(0, pos 30010), (10, neg 500000)] (neg 500000) 0)).acc = neg 0 := by decide

theorem test_add_own_word : (hostStep (machine [(0, pos 30000)] (pos 1) 0)).acc = pos 30001 := by decide

theorem test_subtract : (hostStep (machine [(0, pos 31010), (10, pos 2)] (neg 999999) 0)).acc = neg 1 ∧
    (hostStep (machine [(0, pos 31010), (10, pos 999999)] (neg 1) 0)).acc = neg 0 ∧
    (hostStep (machine [(0, pos 31010), (10, pos 3)] (pos 5) 0)).acc = pos 2 := by decide

theorem test_multiply : (hostStep (machine [(0, pos 32010), (10, pos 999999)] (pos 999999) 0)).acc = pos 1 ∧
    (hostStep (machine [(0, pos 32010), (10, pos 1000)] (neg 1000) 0)).acc = neg 0 ∧
    (hostStep (machine [(0, pos 32010)] (neg 123) 0)).acc = pos 0 := by decide

theorem test_divide : (hostStep (machine [(0, pos 33010), (10, pos 4)] (pos 15) 0)).acc = pos 3 ∧
    (hostStep (machine [(0, pos 33010), (10, pos 2)] (neg 7) 0)).acc = neg 4 ∧
    (hostStep (machine [(0, pos 33010), (10, neg 2)] (neg 7) 0)).acc = pos 3 := by decide

theorem test_divide_faults : (hostStep (machine [(0, pos 33010), (10, neg 0)] (pos 9) 0)).fault =
      some ⟨.divisionByZero, 0, none⟩ ∧
    (hostStep (machine [(0, pos 33100)] (pos 9) 0)).fault = some ⟨.addressOutOfRange, 0, some 100⟩ := by decide

theorem test_branch : (hostStep (machine [(4, pos 40002)] (pos 0) 4)).pc = 2 ∧
    (hostStep (machine [(0, pos 40099)] (pos 0) 0)).halted = true := by decide

theorem test_branch_out_of_range : let t := hostStep (machine [(0, pos 40100)] (pos 0) 0)
    t.fault = some ⟨.addressOutOfRange, 0, some 100⟩ ∧ t.pc = 0 ∧ t.halted = false := by decide

theorem test_branchneg : (hostStep (machine [(5, pos 41009)] (neg 2) 5)).pc = 9 ∧
    (hostStep (machine [(5, pos 41009)] (neg 0) 5)).pc = 6 := by decide

theorem test_branchneg_not_taken : let t := hostStep (machine [(0, pos 41999)] (pos 0) 0)
    t.pc = 1 ∧ t.fault = none := by decide

theorem test_branchzero : (hostStep (machine [(2, pos 42010)] (neg 0) 2)).pc = 10 ∧
    (hostStep (machine [(2, pos 42010)] (neg 1) 2)).pc = 3 := by decide

theorem test_halt : let t := hostStep (machine [(2, pos 43999)] (pos 0) 2)
    t.halted = true ∧ t.pc = 3 ∧ hostStep t = t := by decide

theorem test_noop : let t := hostStep (machine [(98, neg 999999)] (pos 0) 98)
    t.pc = 99 ∧ t.halted = true ∧ t.fault = none := by decide

/-! The text codec (95_test_vectors 2.1). -/

theorem test_parse : ["+010007", "010007", "-043000", "-000000", "  +000042\n", "+1010", "1007", "-4300", "+2005",
    "4399", "+7777", "+1234", "+3400", "0999"].map (fun t => parseWord t.toList) =
    [some (pos 10007), some (pos 10007), some (neg 43000), some (neg 0), some (pos 42), some (pos 10010),
      some (pos 10007), some (neg 43000), some (pos 20005), some (pos 43099), some (pos 7777), some (pos 1234),
      some (pos 3400), some (pos 999)] := by decide

theorem test_parse_malformed : ["+5", "123", "+12345", "1234567", "+0000000", "", "+", "-", "   ", "+-1234", "+12a4",
    "+12345a", "+ 1234", "12 34"].all (fun t => (parseWord t.toList).isNone) = true := by decide

theorem test_human : [pos 42007, neg 21099, pos 43000, pos 15].map humanForm =
    ["BRANCHZERO 007".toList, "STORE 099".toList, "HALT 000".toList, "NOOP".toList] := by decide

theorem test_fromInteger : fromInteger 1010 = .ok (pos 1010) ∧ fromInteger (-5) = .ok (neg 5) ∧
    fromInteger 0 = .ok (pos 0) ∧ fromInteger (-1000000) = .error (.malformedWord "-1000000".toList) := by decide

/-! The host's operations (95_test_vectors 2.3, 2.4; 60_exceptions R193). -/

/-- `Write(50)`, `WriteNext`, `Write(5, +000000)` on an empty memory. -/
theorem test_write_next : let s := (State.reset.putWord 50 (pos 1)).putWord 5 (pos 0)
    (hostWriteNext s (pos 2)).toOption.map (fun t => (t.mem, hostLen t, hostCursor t)) =
      some ([(50, pos 1), (51, pos 2)], 3, 52) := by decide

theorem test_memory_full : (hostWriteNext (State.reset.putWord 99 (neg 0)) (pos 3)).toOption = none := by decide

/-- 70_reset_and_hazards R213: the file `+1007`, `+1107`, `+4300`, loaded and saved again. -/
theorem test_load_and_save : let t := (loadLines State.reset ["+1007".toList, "+1107".toList, "+4300".toList]).1
    hostCursor t = 3 ∧ savedLines t = ["+010007".toList, "+011007".toList, "+043000".toList] := by decide

theorem test_preview : [((50 : Int), (4 : Int)), (0, 5), (1, 4), (99, 5), (98, 4), (50, 0), (50, -3), (-10, 3),
    (500, 3)].map (fun q => (hostPreview State.reset q.1 q.2).map Prod.fst) =
    [[48, 49, 50, 51], [0, 1, 2, 3, 4], [0, 1, 2, 3], [95, 96, 97, 98, 99], [96, 97, 98, 99], [], [], [0, 1, 2],
      [97, 98, 99]] := by decide

theorem test_cpuPreview : cpuPreview (machine [(0, pos 10007), (1, pos 11007), (2, pos 43000)] (pos 0) 1) 3 =
    [(0, "+010007".toList, "READ 007".toList), (1, "+011007".toList, "WRITE 007".toList),
      (2, "+043000".toList, "HALT 000".toList)] := by decide

/-- `Run(5)` on a machine that HALT has halted at 0. -/
theorem test_run_halted : let t := (hostRun (hostStep (machine [(0, pos 43000)] (pos 0) 0)) 5 none 3).final
    t.pc = 5 ∧ t.halted = true := by decide

/-- 41_sequencer R128: with no start named, the run begins at 0, not at `pc`. -/
theorem test_run_default_start :
    (hostEffect (machine [(0, pos 11005), (5, neg 7)] (pos 0) 5) (.run none none 1)).1.output = [neg 7] := by decide

theorem test_run_out_of_range : (hostRun State.reset 100 none 3).final.fault =
    some ⟨.addressOutOfRange, 0, some 100⟩ := by decide

/-- 10_state R38: a host write during the input wait has no move. -/
theorem test_no_write_while_blocked :
    portPermits (hostStep (machine [(0, pos 10007)] (pos 0) 0)) (.write 3 (pos 1)) = false := by decide

theorem test_build_refuses : buildMachine 1 = .error (.capacityNotAllowed 1) ∧
    buildMachine 1001 = .error (.capacityNotAllowed 1001) ∧ powerOnWith 1 [] = .error (.capacityNotAllowed 1) ∧
    powerOnWith 1001 [] = .error (.capacityNotAllowed 1001) ∧ (buildMachine 250).toOption = some (State.powerOn 250) := by
  decide

/-- 10_state R37: an initial sequence goes to the addresses from 0 upward; one longer than the memory is refused. -/
theorem test_build_with_sequence :
    (powerOnWith 100 [pos 1, pos 0, neg 0]).toOption.map (fun t => (t.mem, hostCursor t)) =
      some ([(0, pos 1), (2, neg 0)], 3) ∧
    powerOnWith 2 [pos 1, pos 0, neg 0] = .error (.sequenceNotLoaded (.addressOutOfRange 3)) := by decide

/-! Witnesses: a concrete state and operands that meet all the hypotheses of each statement that has some. A statement
not named here has no hypothesis beyond the clauses of its conclusion. -/

/-- A machine in the middle of a run: it satisfies the invariant, is neither halted nor faulted, and cells 0 to 13 hold
one of each instruction. -/
def busy : State :=
  machine [(0, pos 10020), (1, pos 11020), (2, pos 20020), (3, pos 21004), (4, pos 30020), (5, pos 31020),
    (6, pos 32020), (7, pos 33020), (8, pos 40002), (9, pos 41002), (10, pos 42002), (11, pos 43000), (20, neg 5)]
    (pos 9) 3

theorem witness_invariant : busy.Inv := by decide

theorem witness_PackedEncodingsDecodeBack : (Instr.divide 999).wellFormed = true ∧ (Instr.noop 0).wellFormed = true := by
  decide

theorem witness_InstructionWordsReencode : (neg 43999).opfield ∈ knownCodes ∧ (pos 44000).opfield ∉ knownCodes := by
  decide

theorem witness_PackedFormIsFaithful : unpack 0x1043000 = .ok (neg 43000) := by decide

theorem witness_PowerOnSatisfiesInvariant : (buildMachine 2).toOption = some (State.powerOn 2) ∧
    (buildMachine 1000).toOption = some (State.powerOn 1000) ∧ ¬ Config.CapacityOk 1 ∧ ¬ Config.CapacityOk 1001 ∧
    (powerOnWith 2 [pos 0, pos 0]).toOption = some { State.powerOn 2 with written := [0, 1] } := by decide

theorem witness_StepKeepsInvariant : busy.Inv ∧ step busy = .next (hostStep busy) := by
  refine ⟨by decide, rfl⟩

theorem witness_HostOperationsKeepInvariant : busy.Inv ∧
    hostApply busy (.write 99 (pos 1)) = .ok (hostEffect busy (.write 99 (pos 1))) := ⟨by decide, rfl⟩

theorem witness_HaltAndFaultLastUntilReset : let s := busy.setHalted.raise .divisionByZero
    s.halted = true ∧ s.fault.isSome = true ∧ hostApply s (.run (some 0) none 5) = .ok (hostEffect s (.run (some 0) none 5)) :=
  ⟨rfl, rfl, rfl⟩

theorem witness_StepRunsDecodedInstruction : busy.fault = none ∧ busy.halted = false ∧ busy.pc < busy.capacity ∧
    decode (busy.mem.read busy.pc) = .store 4 := by decide

theorem witness_StoppedMachineDoesNothing : (busy.raise .divisionByZero).fault ≠ none ∧
    (busy.setHalted.fault = none ∧ busy.setHalted.halted = true) ∧
    (let s := { busy with pc := 100 }; s.fault = none ∧ s.halted = false ∧ s.capacity ≤ s.pc) := by decide

theorem witness_SetPcIsChecked : ((-1 : Int) < 0 ∧ (busy.capacity : Int) ≤ 100) ∧ (0 ≤ (99 : Int) ∧ (99 : Int) < busy.capacity) ∧
    (99 : Int) = busy.capacity - 1 ∧ (98 : Int) ≠ busy.capacity - 1 ∧
    step busy = .next (hostStep busy) ∧ (hostStep busy).pc ≠ busy.pc := by
  refine ⟨by decide, by decide, by decide, by decide, rfl, by decide⟩

theorem witness_HaltedByThreeEventsOnly : busy.fault = none ∧ (busy.pc + 1 = busy.capacity → busy.halted = true) ∧
    step busy = .next (hostStep busy) ∧ busy.halted = false ∧ busy.setHalted.halted = true := by
  refine ⟨by decide, by decide, rfl, by decide, by decide⟩

theorem witness_SentinelIsNeverExecuted : let s := { busy with pc := 98 }
    s.Inv ∧ step s = .next (hostStep s) ∧ (hostStep s).pc = s.capacity - 1 := by
  refine ⟨by decide, rfl, by decide⟩

theorem witness_EmptyMemoryRunsToSentinel : Config.CapacityOk 2 ∧ Config.CapacityOk 1000 ∧ (998 : Nat) < 1000 - 1 := by
  decide

theorem witness_RunCornerCases : (busy.raise .divisionByZero).fault ≠ none ∧ busy.fault = none ∧ busy.setHalted.fault = none ∧
    ((-1 : Int) < 0 ∧ (busy.capacity : Int) ≤ 100) ∧ busy.setHalted.halted = true ∧ (99 : Int) = busy.capacity - 1 := by
  decide

theorem witness_MemoryAccessIsChecked : (-1 : Int) < 0 ∧ (busy.capacity : Int) ≤ 100 ∧ 0 ≤ (99 : Int) ∧
    (99 : Int) < busy.capacity ∧ (busy.Inv ∧ 99 ∉ busy.written) ∧
    busy.capacity ≤ hostCursor (busy.putWord 99 (pos 0)) := by decide

theorem witness_StoredWordIsExecutedNext : busy.fault = none ∧ busy.halted = false ∧ busy.pc + 2 < busy.capacity ∧
    decode (busy.mem.read busy.pc) = .store (busy.pc + 1) := by decide

theorem witness_WrittenBitsAreInvisible : step busy = .next (hostStep busy) ∧
    step { busy with written := [] } = .next (hostStep { busy with written := [] }) := ⟨rfl, rfl⟩

/-- For LoadCopiesCell, StoreWritesCell, WriteEmitsCell, the three truncating statements and OverflowIsSilent: the last
cell as operand, and the last address that an instruction executes at. -/
theorem witness_operand_in_range : let s := { busy with pc := 98 }
    (99 : Nat) < s.capacity ∧ s.pc + 1 < s.capacity := by decide

theorem witness_OverflowIsSilent : Instr.multiply 99 ∈ [Instr.add 99, .subtract 99, .multiply 99] := by decide

theorem witness_DivideWritesFloorQuotient : (20 : Nat) < busy.capacity ∧ busy.pc + 1 < busy.capacity ∧
    wordVal (busy.mem.read 20) ≠ 0 := by decide

theorem witness_BranchGoesToTarget : (99 : Nat) < busy.capacity := by decide

/-- Taken with a target in range, and not taken with a target out of range. -/
theorem witness_BranchnegTestsSign :
    (let s := busy.setAcc (neg 1); wordVal s.acc < 0 ∧ (99 : Nat) < s.capacity) ∧
    (let s := busy.setAcc (neg 0); 0 ≤ wordVal s.acc ∧ s.pc + 1 < s.capacity) := by decide

theorem witness_BranchzeroTestsZero :
    (let s := busy.setAcc (neg 0); s.acc.mag.val = 0 ∧ (99 : Nat) < s.capacity) ∧
    (busy.acc.mag.val ≠ 0 ∧ busy.pc + 1 < busy.capacity) := by decide

/-- For HaltSetsHalted and NoopOnlyAdvances. -/
theorem witness_advance_in_range : busy.pc + 1 < busy.capacity := by decide

/-- One malformed line and a valid one before the rest. -/
theorem witness_ReadStoresFirstValidLine : let s := withInput busy ["x", "+000001", "y"]
    s.input = ["x".toList] ++ "+000001".toList :: ["y".toList] ∧ AllMalformed ["x".toList] ∧
      parseWord "+000001".toList = some (pos 1) ∧ (99 : Nat) < s.capacity ∧ s.pc + 1 < s.capacity := by
  refine ⟨by decide, ?_, by decide, by decide, by decide⟩
  intro line h
  rw [List.mem_singleton.mp h]; decide

theorem witness_ReadWaitsForInput : AllMalformed (withInput busy ["x"]).input := by
  intro line h
  rw [List.mem_singleton.mp h]; decide

theorem witness_ReadOutOfRangeLosesInput : let s := withInput busy ["+000001"]
    s.input = [] ++ "+000001".toList :: [] ∧ AllMalformed [] ∧ parseWord "+000001".toList = some (pos 1) ∧
      s.capacity ≤ 100 := by
  refine ⟨by decide, ?_, by decide, by decide⟩
  intro line h; cases h

theorem witness_InputWaitEndsOnlyByHost : let s := { busy with pc := 0 }
    s.fault = none ∧ s.halted = false ∧ decode (s.mem.read s.pc) = .read 20 ∧ (20 : Nat) < s.capacity ∧
      s.pc + 1 < s.capacity ∧ AllMalformed s.input ∧ parseWord "+000001".toList = some (pos 1) := by
  refine ⟨by decide, by decide, by decide, by decide, by decide, ?_, by decide⟩
  intro line h; cases h

theorem witness_OnlyReadWaits : let t := { busy with waiting := true }
    exec (.read 20) busy = .next t ∧ busy.waiting = false ∧ t.waiting = true := ⟨rfl, rfl, rfl⟩

theorem witness_MemoryOperandOutOfRangeFaults : Instr.store 100 ∈ [Instr.write 100, .load 100, .store 100, .add 100,
    .subtract 100, .multiply 100, .divide 100] ∧ busy.capacity ≤ 100 := by decide

theorem witness_BranchTargetOutOfRangeFaults : busy.capacity ≤ 100 ∧ wordVal (busy.setAcc (neg 1)).acc < 0 ∧
    wordVal (busy.setAcc (neg 0)).acc = 0 := by decide

theorem witness_DivideByZeroFaults : (99 : Nat) < busy.capacity ∧ (busy.mem.read 99).mag.val = 0 := by decide

/-- For FaultsArePrecise and InstructionsRaiseTwoKinds: a DIVIDE by an unwritten cell, and a LOAD out of range. -/
theorem witness_FaultsArePrecise : busy.fault = none ∧ busy.pc + 1 < busy.capacity ∧
    exec (.divide 99) busy = .next (busy.raise .divisionByZero) ∧
    (busy.raise .divisionByZero).fault = some ⟨.divisionByZero, 3, none⟩ ∧
    exec (.load 100) busy = .next (busy.raise (.addressOutOfRange 100)) := by
  refine ⟨by decide, by decide, rfl, by decide, rfl⟩

/-- For the five frames: an instruction of each answers a next state. -/
theorem witness_frames : exec (.load 20) busy = .next ((busy.setAcc (neg 5)).jump 4) ∧
    exec (.branch 99) busy = .next (busy.jump 99) ∧ exec (.write 20) busy = .next ((busy.outEmit (neg 5)).jump 4) ∧
    exec (.store 20) busy = .next ((busy.putWord 20 (pos 9)).jump 4) ∧
    exec (.read 20) busy = .next (busy.setWaiting true) := ⟨rfl, rfl, rfl, rfl, rfl⟩

theorem witness_CanonicalTextRoundTrips :
    ['9', '9', '0', '0', '9', '9'].length = 6 ∧ ∀ c ∈ ['9', '9', '0', '0', '9', '9'], isDigitChar c = true :=
  ⟨rfl, List.all_eq_true.mp rfl⟩

theorem witness_IntegersGoThroughTheirText : (-999999 : Int).natAbs ≤ 999999 ∧ 999999 < (1000000 : Int).natAbs := by
  decide

theorem witness_WriteNextAppends : busy.Inv ∧ busy.capacity - 1 ∉ busy.written ∧
    (busy.putWord 99 (pos 0)).Inv ∧ busy.capacity - 1 ∈ (busy.putWord 99 (pos 0)).written := by decide

theorem witness_ClearReloadsStore : busy.capacity < (List.replicate 101 (pos 1)).length ∧
    (List.replicate 100 (pos 1)).length ≤ busy.capacity := by decide

/-- The clauses on the lower bound: a window of 4 centred on 98 fits exactly, on 2 too; on 1 it is shifted up, and one of
5 centred on 99 is shifted down. -/
theorem witness_PreviewIsClippedWindow : (0 : Int) ≤ 0 ∧ (0 : Int) < 1 ∧ 0 < busy.capacity ∧ (0 : Int) ≤ 99 ∧
    (99 : Int) < busy.capacity ∧ windowSize busy 4 = 4 ∧
    (0 ≤ unshiftedLow busy 98 4 ∧ unshiftedLow busy 98 4 + 4 = busy.capacity) ∧
    (unshiftedLow busy 2 4 = 0 ∧ unshiftedLow busy 2 4 + 4 ≤ busy.capacity) ∧ unshiftedLow busy 1 4 < 0 ∧
    (busy.capacity : Int) < unshiftedLow busy 99 5 + windowSize busy 5 := by decide

/-- An overflow to a negative zero in each of the three operations. -/
theorem witness_NegativeZeroOnlyFromOverflow : aluAdd (neg 500000) (neg 500000) = neg 0 ∧
    aluSub (neg 1) (pos 999999) = neg 0 ∧ aluMul (neg 1000) (pos 1000) = neg 0 ∧
    OverflowsToNegativeZero (wordVal (neg 1000) * wordVal (pos 1000)) := by decide

theorem witness_LoaderFillsFromZero : State.reset.mem = [] ∧ State.reset.written = [] ∧
    ["+1007".toList, "-000000".toList].length ≤ State.reset.capacity ∧
    ["+1007".toList, "-000000".toList].map parseWord = [pos 10007, neg 0].map some := by decide

theorem witness_ResetRunsAgainFromZero : (busy.raise .divisionByZero).Inv := by decide

end Sys2Proof.Tests
end

/-! Power-on and the building of a machine (00_scope R5; 10_state R36, R37; 70_reset_and_hazards R211): the fields of the
power-on state, what building answers, and that a machine that may be built satisfies the invariant. -/

namespace Sys2Proof.Machine

/-! `State.powerOn` -/

@[simp] theorem State.powerOn_capacity (n : Nat) : (State.powerOn n).capacity = n := rfl
@[simp] theorem State.powerOn_acc (n : Nat) : (State.powerOn n).acc = Word.zero := rfl
@[simp] theorem State.powerOn_pc (n : Nat) : (State.powerOn n).pc = 0 := rfl
@[simp] theorem State.powerOn_halted (n : Nat) : (State.powerOn n).halted = false := rfl
@[simp] theorem State.powerOn_waiting (n : Nat) : (State.powerOn n).waiting = false := rfl
@[simp] theorem State.powerOn_fault (n : Nat) : (State.powerOn n).fault = none := rfl
@[simp] theorem State.powerOn_mem (n : Nat) : (State.powerOn n).mem = [] := rfl
@[simp] theorem State.powerOn_written (n : Nat) : (State.powerOn n).written = [] := rfl
@[simp] theorem State.powerOn_input (n : Nat) : (State.powerOn n).input = [] := rfl
@[simp] theorem State.powerOn_output (n : Nat) : (State.powerOn n).output = [] := rfl
@[simp] theorem State.powerOn_errlog (n : Nat) : (State.powerOn n).errlog = [] := rfl

@[simp] theorem sign_zero : Word.zero.sign = .plus := rfl

@[simp] theorem wordVal_zero : wordVal Word.zero = 0 := rfl

/-- A machine on which no cell is written has its append cursor at 0 (10_state R27). -/
theorem hostCursor_of_written_nil {s : State} (h : s.written = []) : hostCursor s = 0 := by
  simp [hostCursor, h, Marks.cursor]

/-- A machine on which no cell is written has length 0 (20_memory R54). -/
theorem hostLen_of_written_nil {s : State} (h : s.written = []) : hostLen s = 0 := by
  simp [hostLen, h]

/-! The invariant in a machine that neither faults nor waits, and in the power-on state. -/

theorem State.latchLegal_of_no_fault {s : State} (h : s.fault = none) : s.latchLegal = true := by
  simp [State.latchLegal, h]

theorem State.waitLegal_of_not_waiting {s : State} (h : s.waiting = false) : s.waitLegal = true := by
  simp [State.waitLegal, h]

/-- 70_reset_and_hazards R210 with 10_state R33: `pc` is 0, which is no sentinel because there are two cells or more, and
the store is empty. -/
theorem State.powerOn_inv {n : Nat} (h : Config.CapacityOk n) : (State.powerOn n).Inv := by
  obtain ⟨hlow, hhigh⟩ := h
  have hpc : (State.powerOn n).pc < (State.powerOn n).capacity := by
    simp only [State.powerOn_pc, State.powerOn_capacity]; omega
  have hsentinel : (State.powerOn n).pc + 1 ≠ (State.powerOn n).capacity := by
    simp only [State.powerOn_pc, State.powerOn_capacity]; omega
  have hstore : Memory.wf (State.powerOn n).mem ∧ Marks.wf (State.powerOn n).written := by
    simp [Memory.wf, Marks.wf]
  exact ⟨⟨hlow, hhigh⟩, hpc, fun h => absurd h hsentinel, State.latchLegal_of_no_fault rfl,
    State.waitLegal_of_not_waiting rfl, hstore, by simp, by simp⟩

theorem defaultCapacity_ok : Config.CapacityOk Config.defaultCapacity := by decide

/-! Building. -/

theorem buildMachine_refused {n : Nat} (h : ¬ Config.CapacityOk n) :
    buildMachine n = .error (.capacityNotAllowed n) := if_neg h

theorem buildMachine_allowed {n : Nat} (h : Config.CapacityOk n) : buildMachine n = .ok (State.powerOn n) := if_pos h

theorem buildMachine_eq_ok_iff {n : Nat} {s : State} :
    buildMachine n = .ok s ↔ Config.CapacityOk n ∧ s = State.powerOn n := by
  by_cases h : Config.CapacityOk n
  · rw [buildMachine_allowed h, Except.ok.injEq, eq_comm]; exact (and_iff_right h).symm
  · simp [buildMachine_refused h, h]

theorem powerOnWith_of_not_built {n : Nat} {e : BuildRefusal} (ws : List Word) (h : buildMachine n = .error e) :
    powerOnWith n ws = .error e := by
  simp [powerOnWith, h]

theorem powerOnWith_of_built {n : Nat} {t : State} (ws : List Word) (h : buildMachine n = .ok t) :
    powerOnWith n ws = (hostClear t ws).mapError .sequenceNotLoaded := by
  simp [powerOnWith, h]

/-- Renaming the error of a computation leaves its successful results as they are. -/
theorem mapError_eq_ok_iff {ε ε' α : Type} {f : ε → ε'} {r : Except ε α} {a : α} :
    r.mapError f = .ok a ↔ r = .ok a := by
  cases r <;> simp [Except.mapError]

/-- 10_state R37: a machine built with an initial sequence is a machine built without one and then cleared. -/
theorem powerOnWith_eq_ok_iff {n : Nat} {ws : List Word} {s : State} :
    powerOnWith n ws = .ok s ↔ ∃ t : State, buildMachine n = .ok t ∧ hostClear t ws = .ok s := by
  cases hb : buildMachine n with
  | error e => simp [powerOnWith_of_not_built ws hb]
  | ok t => simp [powerOnWith_of_built ws hb, mapError_eq_ok_iff]

/-! The two obligations. -/

/-- Settles O6: the power-on state by its fields; the derived views `cursor` and `Len` are 0 because nothing is written. -/
theorem powerOnState : Obligations.PowerOnState := by
  refine ⟨rfl, fun n => ?_⟩
  have hcursor : hostCursor (State.powerOn n) = 0 := hostCursor_of_written_nil rfl
  have hlen : hostLen (State.powerOn n) = 0 := hostLen_of_written_nil rfl
  simp [hcursor, hlen]

/-- Settles O7: a machine is built exactly when its capacity is allowed, and then it is the power-on state, which satisfies
the invariant; an initial sequence adds only the `Clear`. -/
theorem powerOnSatisfiesInvariant : Obligations.PowerOnSatisfiesInvariant := by
  refine ⟨State.powerOn_inv defaultCapacity_ok, fun n s hs => ?built, fun n hn => ?refused,
    fun n ws s => powerOnWith_eq_ok_iff⟩
  case built =>
    obtain ⟨hn, rfl⟩ := buildMachine_eq_ok_iff.mp hs
    exact ⟨State.powerOn_inv hn, State.powerOn_capacity n⟩
  case refused =>
    have hb := buildMachine_refused hn
    exact ⟨hb, fun ws => powerOnWith_of_not_built ws hb⟩

end Sys2Proof.Machine

/-! The store half of the invariant (10_state R33, I6), and what a store must satisfy for a memory write to keep it. -/

namespace Sys2Proof.Machine

/-- 10_state R33 (I6) of a memory and its `written` bits on a machine of `n` cells: both are in canonical form, only cells
of the machine are written, and a cell that does not read `+000000` is written. -/
structure StoreOk (n : Nat) (m : Memory) (l : Marks) : Prop where
  mem_wf : m.wf
  written_wf : l.wf
  written_lt : ∀ a ∈ l, a < n
  listed_written : ∀ c ∈ m, c.1 ∈ l

theorem StoreOk.empty (n : Nat) : StoreOk n [] [] := ⟨by simp [Memory.wf], by simp [Marks.wf], by simp, by simp⟩

theorem StoreOk.write {n : Nat} {m : Memory} {l : Marks} {a : Nat} (w : Word) (h : StoreOk n m l) (ha : a < n) :
    StoreOk n (m.write a w) (l.mark a) where
  mem_wf := Memory.write_wf a w h.mem_wf
  written_wf := Marks.mark_wf a h.written_wf
  written_lt b hb := by
    rcases Marks.mem_mark.mp hb with rfl | hb
    · exact ha
    · exact h.written_lt b hb
  listed_written c hc := by
    rcases Memory.mem_write hc with hc | hc
    · exact Marks.mem_mark.mpr (.inl hc)
    · exact Marks.mem_mark.mpr (.inr (h.listed_written c hc))

/-! The parts of the invariant. -/

/-- The invariant, with its clauses on the store taken together. -/
theorem State.inv_iff {s : State} :
    s.Inv ↔ Config.CapacityOk s.capacity ∧ s.pc < s.capacity ∧ (s.pc + 1 = s.capacity → s.halted = true) ∧
      s.latchLegal = true ∧ s.waitLegal = true ∧ StoreOk s.capacity s.mem s.written := by
  constructor
  · rintro ⟨hcap, hpc, hend, hlatch, hwait, ⟨hmem, hwr⟩, hlt, hlisted⟩
    exact ⟨hcap, hpc, hend, hlatch, hwait, ⟨hmem, hwr, hlt, hlisted⟩⟩
  · rintro ⟨hcap, hpc, hend, hlatch, hwait, hmem, hwr, hlt, hlisted⟩
    exact ⟨hcap, hpc, hend, hlatch, hwait, ⟨hmem, hwr⟩, hlt, hlisted⟩

theorem State.waitLegal_iff {s : State} :
    s.waitLegal = true ↔
      (s.waiting = true → isReadInstr s.nextInstr = true ∧ s.halted = false ∧ s.fault = none) := by
  cases h : s.waiting <;> simp [State.waitLegal, h, and_assoc]

/-- 60_exceptions R186: the latch of an error that a step or a `Run` raises is legal. -/
theorem State.raise_latchLegal {s : State} {e : Err} (he : e.raisable s.capacity) : (s.raise e).latchLegal = true := by
  rcases he with ⟨v, rfl, hv⟩ | rfl
  · simp [State.latchLegal, FaultLatch.legal, Err.kind, Err.info, hv]
  · simp [State.latchLegal, FaultLatch.legal, Err.kind, Err.info]

/-! Each named update keeps the invariant. An update that moves `pc`, halts or stores asks for a machine that does not
wait, because a waiting machine stands on its READ (I5). -/

theorem State.Inv.jump {s : State} {a : Nat} (h : s.Inv) (hw : s.waiting = false) (hf : s.fault = none)
    (ha : a < s.capacity) : (s.jump a).Inv := by
  obtain ⟨hcap, -, -, -, -, hstore⟩ := State.inv_iff.mp h
  exact State.inv_iff.mpr ⟨hcap, ha, fun hend => by simp [show a + 1 = s.capacity from hend],
    State.latchLegal_of_no_fault hf, State.waitLegal_of_not_waiting hw, hstore⟩

theorem State.Inv.raise {s : State} {e : Err} (h : s.Inv) (he : e.raisable s.capacity) : (s.raise e).Inv := by
  obtain ⟨hcap, hpc, hend, -, -, hstore⟩ := State.inv_iff.mp h
  exact State.inv_iff.mpr ⟨hcap, hpc, hend, State.raise_latchLegal he, State.waitLegal_of_not_waiting rfl, hstore⟩

/-- 10_state R23: a machine that stands on a READ, neither halted nor faulted, may enter the input wait. -/
theorem State.Inv.consumeInput {s : State} (r : InputScan) (h : s.Inv) (hread : isReadInstr s.nextInstr = true)
    (hh : s.halted = false) (hf : s.fault = none) : (s.consumeInput r).Inv := by
  obtain ⟨hcap, hpc, hend, hlatch, -, hstore⟩ := State.inv_iff.mp h
  exact State.inv_iff.mpr ⟨hcap, hpc, hend, hlatch, State.waitLegal_iff.mpr fun _ => ⟨hread, hh, hf⟩, hstore⟩

theorem State.Inv.putWord {s : State} {a : Nat} (w : Word) (h : s.Inv) (hw : s.waiting = false)
    (ha : a < s.capacity) : (s.putWord a w).Inv := by
  obtain ⟨hcap, hpc, hend, hlatch, -, hstore⟩ := State.inv_iff.mp h
  exact State.inv_iff.mpr ⟨hcap, hpc, hend, hlatch, State.waitLegal_of_not_waiting hw, hstore.write w ha⟩

theorem State.Inv.emptyStore {s : State} (h : s.Inv) (hw : s.waiting = false) : s.emptyStore.Inv := by
  obtain ⟨hcap, hpc, hend, hlatch, -, -⟩ := State.inv_iff.mp h
  exact State.inv_iff.mpr ⟨hcap, hpc, hend, hlatch, State.waitLegal_of_not_waiting hw, .empty _⟩

theorem State.Inv.stopWaiting {s : State} (h : s.Inv) : (s.setWaiting false).Inv := by
  obtain ⟨hcap, hpc, hend, hlatch, -, hstore⟩ := State.inv_iff.mp h
  exact State.inv_iff.mpr ⟨hcap, hpc, hend, hlatch, State.waitLegal_of_not_waiting rfl, hstore⟩

theorem State.Inv.append {s : State} (line : Text) (h : s.Inv) : (hostAppend s line).Inv := h

/-- 70_reset_and_hazards R210: `pc = 0` is no sentinel, because there are two cells or more. -/
theorem State.Inv.cpuReset {s : State} (h : s.Inv) : s.cpuReset.Inv := by
  obtain ⟨hcap, hpc, -, -, -, hstore⟩ := State.inv_iff.mp h
  have hend : s.cpuReset.pc + 1 ≠ s.cpuReset.capacity := by
    simp only [State.cpuReset_pc, State.cpuReset_capacity]; omega
  exact State.inv_iff.mpr ⟨hcap, Nat.zero_lt_of_lt hpc, fun h => absurd h hend,
    State.latchLegal_of_no_fault rfl, State.waitLegal_of_not_waiting rfl, hstore⟩

/-! A step keeps the invariant and the capacity. -/

/-- An instruction that has done its work is not in the input wait: a READ has obtained its Word, and no other instruction
is executed by a waiting machine (I5). -/
theorem Worked.not_waiting {s u : State} (h : s.Inv) (hu : Worked s.nextInstr s u) : u.waiting = false := by
  obtain ⟨-, -, -, -, hwait, -⟩ := State.inv_iff.mp h
  rcases hu.waiting with ⟨hsame, hnot⟩ | ⟨hfalse, -⟩
  · rw [hsame, Bool.eq_false_iff]
    intro hw
    obtain ⟨hread, -, -⟩ := State.waitLegal_iff.mp hwait hw
    cases hi : s.nextInstr with
    | read a => exact hnot a hi
    | _ => simp [hi, isReadInstr] at hread
  · exact hfalse

/-- The work of an instruction, before it moves `pc` or faults, keeps the invariant. -/
theorem Worked.inv {s u : State} (h : s.Inv) (hf : s.fault = none) (hu : Worked s.nextInstr s u) : u.Inv := by
  have hwaiting := hu.not_waiting h
  obtain ⟨hcap, hpc, hend, -, -, hstore⟩ := State.inv_iff.mp h
  have hhalted : s.halted = true → u.halted = true := by
    rcases hu.halted with ⟨hsame, -⟩ | ⟨htrue, -⟩
    · rw [hsame]; exact id
    · exact fun _ => htrue
  have hustore : StoreOk s.capacity u.mem u.written := by
    rcases hu.store with ⟨hmem, hwr⟩ | ⟨a, w, ha, hmem, hwr⟩
    · rw [hmem, hwr]; exact hstore
    · rw [hmem, hwr]; exact hstore.write w ha
  refine State.inv_iff.mpr ⟨?_, ?_, ?_, State.latchLegal_of_no_fault (hu.fault.trans hf),
    State.waitLegal_of_not_waiting hwaiting, ?_⟩ <;> rw [hu.capacity]
  · exact hcap
  · rw [hu.pc]; exact hpc
  · rw [hu.pc]; exact fun e => hhalted (hend e)
  · exact hustore

/-- Executing the instruction at `pc` keeps the invariant, on a machine that is neither faulted nor halted. -/
theorem Does.inv {s t : State} (h : s.Inv) (hf : s.fault = none) (hh : s.halted = false)
    (hd : Does s.nextInstr s t) : t.Inv := by
  rcases hd with ⟨⟨a, hread⟩, -, rfl⟩ | ⟨u, b, hu, hb, rfl⟩ | ⟨u, e, hu, he, rfl⟩
  · exact h.consumeInput _ (by rw [hread]; rfl) hh hf
  · exact (hu.inv h hf).jump (hu.not_waiting h) (hu.fault.trans hf) (hu.capacity ▸ hb)
  · exact (hu.inv h hf).raise (hu.capacity ▸ he)

theorem Does.capacity {i : Instr} {s t : State} (hd : Does i s t) : t.capacity = s.capacity := by
  rcases hd with ⟨-, -, rfl⟩ | ⟨u, b, hu, -, rfl⟩ | ⟨u, e, hu, -, rfl⟩
  · rfl
  · exact hu.capacity
  · exact hu.capacity

theorem State.setHalted_of_halted {s : State} (h : s.halted = true) : s.setHalted = s := by
  rw [State.setHalted, ← h]

/-- 10_state R22: under the invariant `pc` is in range, so a step is finished only because the machine is halted. -/
theorem State.Inv.halted_of_finished {s : State} (h : s.Inv) (hd : s.finished = true) : s.halted = true := by
  obtain ⟨-, hpc, -⟩ := h
  simpa [State.finished, State.inRange, hpc] using hd

theorem step_inv {s t : State} (h : s.Inv) (hstep : step s = .next t) : t.Inv := by
  rcases step_does s t hstep with ⟨-, rfl⟩ | ⟨-, hd, rfl⟩ | ⟨hf, hh, -, hexec⟩
  · exact h
  · rw [State.setHalted_of_halted (h.halted_of_finished hd)]; exact h
  · exact (exec_does _ s t hexec).inv h hf hh

theorem step_capacity {s t : State} (hstep : step s = .next t) : t.capacity = s.capacity := by
  rcases step_does s t hstep with ⟨-, rfl⟩ | ⟨-, -, rfl⟩ | ⟨-, -, -, hexec⟩
  · rfl
  · rfl
  · exact (exec_does _ s t hexec).capacity

/-- Settles O8: a step leaves the state, or executes the instruction at `pc`, whose every outcome keeps the invariant. -/
theorem stepKeepsInvariant : Obligations.StepKeepsInvariant := fun _ _ h hstep => step_inv h hstep

/-- Settles O42: an instruction that has done its work leaves `waiting` as it was, unless it is a READ. -/
theorem onlyReadWaits : Obligations.OnlyReadWaits := by
  intro i s t hexec hs ht
  rcases exec_does i s t hexec with ⟨hread, -, -⟩ | ⟨u, b, hu, -, rfl⟩ | ⟨u, e, -, -, rfl⟩
  · exact hread
  · rw [State.jump_waiting] at ht
    rcases hu.waiting with ⟨hsame, -⟩ | ⟨-, hread⟩
    · simp [hsame, hs] at ht
    · exact hread
  · simp at ht

end Sys2Proof.Machine

/-! The operations of the host (10_state R32, R38): everything one of them can do to the state, said once. -/

namespace Sys2Proof.Machine

/-! What the checked operations answer for any integer a host gives. -/

theorem State.setPc_ok {s t : State} {v : Int} (h : s.setPc v = .ok t) : ∃ a, a < s.capacity ∧ t = s.jump a := by
  unfold State.setPc at h
  split at h
  · cases h
  · rename_i hv; injection h with h; exact ⟨v.toNat, by omega, h.symm⟩

theorem State.setPc_error {s : State} {v : Int} {e : Err} (h : s.setPc v = .error e) : e.raisable s.capacity := by
  unfold State.setPc at h
  split at h
  · rename_i hv; injection h with h; exact .inl ⟨v, h.symm, hv⟩
  · cases h

theorem State.memWrite_ok {s t : State} {v : Int} {w : Word} (h : s.memWrite v w = .ok t) :
    ∃ a, a < s.capacity ∧ t = s.putWord a w := by
  unfold State.memWrite at h
  split at h
  · rename_i hv; rw [State.inRange_iff] at hv; injection h with h; exact ⟨v.toNat, by omega, h.symm⟩
  · cases h

theorem hostClear_ok {s t : State} {ws : List Word} (h : hostClear s ws = .ok t) :
    ws.length ≤ s.capacity ∧ t = s.emptyStore.loadFrom 0 ws := by
  unfold hostClear at h
  split at h
  · cases h
  · rename_i hlen; injection h with h; exact ⟨Nat.not_lt.mp hlen, h.symm⟩

/-- 60_exceptions R197: a memory operation of the host leaves the state it answers, or the old state. -/
theorem portResult_state {s t : State} {r : Except Err State} {e : Option Err} (h : portResult s r = (t, e)) :
    t = s ∨ r = .ok t := by
  cases r with
  | ok u => injection h with h; exact .inr (by rw [h])
  | error e => injection h with h; exact .inl h.symm

theorem hostApply_ok {s : State} {op : HostOp} {r : State × Option Err} (h : hostApply s op = .ok r) :
    portPermits s op = true ∧ hostEffect s op = r := by
  unfold hostApply at h
  split at h
  · rename_i hp; injection h with h; exact ⟨hp, h⟩
  · cases h

/-! Loading a sequence of Words. -/

/-- 20_memory R53: loading Words changes memory and the `written` bits only. -/
theorem State.loadFrom_frame (s : State) (i : Nat) (ws : List Word) :
    s.loadFrom i ws = { s with mem := (s.loadFrom i ws).mem, written := (s.loadFrom i ws).written } := by
  induction ws generalizing s i with
  | nil => rfl
  | cons w ws ih => exact ih (s.putWord i w) (i + 1)

@[simp] theorem State.loadFrom_capacity (s : State) (i : Nat) (ws : List Word) :
    (s.loadFrom i ws).capacity = s.capacity := by rw [s.loadFrom_frame i ws]

@[simp] theorem State.loadFrom_halted (s : State) (i : Nat) (ws : List Word) :
    (s.loadFrom i ws).halted = s.halted := by rw [s.loadFrom_frame i ws]

@[simp] theorem State.loadFrom_fault (s : State) (i : Nat) (ws : List Word) :
    (s.loadFrom i ws).fault = s.fault := by rw [s.loadFrom_frame i ws]

theorem State.Inv.loadFrom {s : State} {i : Nat} (ws : List Word) (h : s.Inv) (hw : s.waiting = false)
    (hlen : i + ws.length ≤ s.capacity) : (s.loadFrom i ws).Inv := by
  induction ws generalizing s i with
  | nil => exact h
  | cons w ws ih =>
    rw [List.length_cons] at hlen
    exact ih (h.putWord w hw (by omega)) hw (by rw [State.putWord_capacity]; omega)

/-! Any number of steps. -/

/-- `t` is reached from `s` by zero or more steps. -/
def Steps (s t : State) : Prop := Relation.ReflTransGen (fun s t => step s = .next t) s t

theorem Steps.refl (s : State) : Steps s s := Relation.ReflTransGen.refl

theorem Steps.single {s t : State} (h : step s = .next t) : Steps s t := Relation.ReflTransGen.single h

theorem Steps.head {s t u : State} (h : step s = .next t) (hs : Steps t u) : Steps s u :=
  Relation.ReflTransGen.head h hs

/-- What every step keeps, any number of steps keeps. -/
theorem Steps.keeps {P : State → Prop} {s t : State} (hstep : ∀ u v, P u → step u = .next v → P v)
    (hs : Steps s t) (h : P s) : P t := by
  unfold Steps at hs
  induction hs with
  | refl => exact h
  | tail _ hlast ih => exact hstep _ _ ih hlast

theorem hostStep_steps (s : State) : Steps s (hostStep s) := by
  unfold hostStep
  split
  · rename_i t ht; exact .single ht
  · exact .refl s
  · exact .refl s

/-- 41_sequencer R128: the loop of `Run` does nothing to the state but step. -/
theorem runLoop_steps (trace : Option Int) (k : Nat) (s : State) : Steps s (runLoop trace k s).final := by
  induction k generalizing s with
  | zero => exact .refl s
  | succ k ih =>
    unfold runLoop
    split
    · exact .refl s
    · split
      · rename_i t ht
        split
        · exact .single ht
        · exact .head ht (ih t)
      · exact .refl s
      · exact .refl s

/-- Everything an operation of the host can do to the state. -/
inductive HostMove (s : State) (op : HostOp) : State → Prop
  /-- `Reset()`. -/
  | reset (hop : op = .reset) : HostMove s op s.cpuReset
  /-- Nothing, or steps from where the machine stands. -/
  | steps {t : State} (hs : Steps s t) : HostMove s op t
  /-- `Run` from a start in range: the `SetPC`, then steps. -/
  | startRun {a : Nat} {t : State} (hw : s.waiting = false) (hf : s.fault = none) (ha : a < s.capacity)
      (hs : Steps (s.jump a) t) : HostMove s op t
  /-- `Run` from a start out of range, which is latched. -/
  | badStart {e : Err} (hf : s.fault = none) (he : e.raisable s.capacity) : HostMove s op (s.raise e)
  | stop : HostMove s op (s.setWaiting false)
  | write {a : Nat} {w : Word} (hw : s.waiting = false) (ha : a < s.capacity) : HostMove s op (s.putWord a w)
  | clear {ws : List Word} (hw : s.waiting = false) (hlen : ws.length ≤ s.capacity) :
      HostMove s op (s.emptyStore.loadFrom 0 ws)
  | append {line : Text} : HostMove s op (hostAppend s line)

theorem hostRun_move (op : HostOp) {s : State} (start : Int) (trace : Option Int) (budget : Nat)
    (hw : s.waiting = false) : HostMove s op (hostRun s start trace budget).final := by
  unfold hostRun
  split
  · exact .steps (.refl s)
  · rename_i hf
    have hf : s.fault = none := by simpa using hf
    split
    · rename_i e he; exact .badStart hf (State.setPc_error he)
    · rename_i t ht
      obtain ⟨a, ha, rfl⟩ := State.setPc_ok ht
      exact .startRun hw hf ha (runLoop_steps trace budget _)

/-- A write of the host, at an address it names or at the append cursor. -/
theorem memWrite_move (op : HostOp) {s t : State} {v : Int} {w : Word} {e : Option Err} (hw : s.waiting = false)
    (h : portResult s (s.memWrite v w) = (t, e)) : HostMove s op t := by
  rcases portResult_state h with rfl | h
  · exact .steps (.refl t)
  · obtain ⟨a, ha, rfl⟩ := State.memWrite_ok h
    exact .write hw ha

/-- An operation the host may issue makes one of these moves. -/
theorem hostApply_move {s t : State} {op : HostOp} {e : Option Err} (h : hostApply s op = .ok (t, e)) :
    HostMove s op t := by
  obtain ⟨hp, he⟩ := hostApply_ok h
  cases op with
  | reset => injection he with he; subst he; exact .reset rfl
  | step => injection he with he; subst he; exact .steps (hostStep_steps s)
  | run start trace budget =>
    injection he with he; subst he
    exact hostRun_move _ _ trace budget (by simpa [portPermits] using hp)
  | resume trace budget => injection he with he; subst he; exact .steps (runLoop_steps trace budget s)
  | stop => injection he with he; subst he; exact .stop
  | write a w => exact memWrite_move _ (by simpa [portPermits] using hp) he
  | writeNext w => exact memWrite_move _ (by simpa [portPermits] using hp) he
  | clear ws =>
    rcases portResult_state he with rfl | hc
    · exact .steps (.refl t)
    · obtain ⟨hlen, rfl⟩ := hostClear_ok hc
      exact .clear (by simpa [portPermits] using hp) hlen
  | append line => injection he with he; subst he; exact .append

/-! The invariant and the capacity under the moves of the host. -/

theorem Steps.inv {s t : State} (hs : Steps s t) (h : s.Inv) : t.Inv := hs.keeps (fun _ _ => step_inv) h

theorem Steps.capacity {s t : State} (hs : Steps s t) : t.capacity = s.capacity :=
  hs.keeps (P := fun u => u.capacity = s.capacity) (fun _ _ hu hstep => (step_capacity hstep).trans hu) rfl

theorem HostMove.inv {s t : State} {op : HostOp} (hm : HostMove s op t) (h : s.Inv) : t.Inv := by
  cases hm with
  | reset => exact h.cpuReset
  | steps hs => exact hs.inv h
  | startRun hw hf ha hs => exact hs.inv (h.jump hw hf ha)
  | badStart _ he => exact h.raise he
  | stop => exact h.stopWaiting
  | write hw ha => exact h.putWord _ hw ha
  | clear hw hlen => exact (h.emptyStore hw).loadFrom _ hw (by simpa using hlen)
  | append => exact h.append _

theorem HostMove.capacity {s t : State} {op : HostOp} (hm : HostMove s op t) : t.capacity = s.capacity := by
  cases hm with
  | steps hs => exact hs.capacity
  | startRun _ _ _ hs => exact hs.capacity
  | clear => exact State.loadFrom_capacity _ _ _
  | _ => rfl

/-- Settles O9: each move of the host keeps the invariant and the capacity. -/
theorem hostOperationsKeepInvariant : Obligations.HostOperationsKeepInvariant :=
  fun _ _ _ _ h happly => ⟨(hostApply_move happly).inv h, (hostApply_move happly).capacity⟩

/-! `halted` and the latch last (10_state R33, I3 and I4). -/

/-- From `s` to `t`, `halted` is not cleared and a latch that is set is kept. -/
structure StopsLast (s t : State) : Prop where
  halted : s.halted = true → t.halted = true
  fault : s.fault.isSome = true → t.fault = s.fault

theorem StopsLast.trans {s t u : State} (h : StopsLast s t) (k : StopsLast t u) : StopsLast s u where
  halted hs := k.halted (h.halted hs)
  fault hs := by rw [k.fault (by rw [h.fault hs]; exact hs), h.fault hs]

/-- An update that leaves both fields as they were. -/
theorem StopsLast.of_eq {s t : State} (hh : t.halted = s.halted) (hf : t.fault = s.fault) : StopsLast s t :=
  ⟨fun h => hh.trans h, fun _ => hf⟩

theorem jump_stopsLast (s : State) (a : Nat) : StopsLast s (s.jump a) := ⟨fun h => by simp [h], fun _ => rfl⟩

/-- 10_state R24: on a machine with no fault latched, taking one clears nothing. -/
theorem raise_stopsLast {s : State} (e : Err) (hf : s.fault = none) : StopsLast s (s.raise e) :=
  ⟨id, fun h => by simp [hf] at h⟩

/-- 41_sequencer R122: a machine that is halted or faulted executes nothing. -/
theorem step_stopsLast {s t : State} (hstep : step s = .next t) : StopsLast s t := by
  rcases step_does s t hstep with ⟨-, rfl⟩ | ⟨-, -, rfl⟩ | ⟨hf, hh, -, -⟩
  · exact .of_eq rfl rfl
  · exact ⟨fun _ => rfl, fun _ => rfl⟩
  · exact ⟨fun h => by simp [hh] at h, fun h => by simp [hf] at h⟩

theorem Steps.stopsLast {s t : State} (hs : Steps s t) : StopsLast s t :=
  hs.keeps (fun _ _ hu hstep => hu.trans (step_stopsLast hstep)) (.of_eq rfl rfl)

theorem HostMove.stopsLast {s t : State} {op : HostOp} (hm : HostMove s op t) (hop : op ≠ .reset) :
    StopsLast s t := by
  cases hm with
  | reset hreset => exact absurd hreset hop
  | steps hs => exact hs.stopsLast
  | startRun _ _ _ hs => exact (jump_stopsLast s _).trans hs.stopsLast
  | badStart hf => exact raise_stopsLast _ hf
  | clear => exact .of_eq (by simp) (by simp)
  | stop => exact .of_eq rfl rfl
  | write => exact .of_eq rfl rfl
  | append => exact .of_eq rfl rfl

/-- Settles O10: no move of the host but `Reset()` clears `halted` or changes a latch that is set. -/
theorem haltAndFaultLastUntilReset : Obligations.HaltAndFaultLastUntilReset := by
  intro s t op e hop happly
  obtain ⟨hhalted, hfault⟩ := (hostApply_move happly).stopsLast hop
  exact ⟨hhalted, hfault⟩

end Sys2Proof.Machine

/-! Noninterference of the `written` bits (10_state R27): the relation "differs in the `written` bits only" is kept by
every operation a meaning is built from, hence by every instruction and by a step. -/

namespace Sys2Proof.Machine

/-- `t` is `s` but for its `written` bits. -/
def MarksOnly (s t : State) : Prop := ∃ l : Marks, t = { s with written := l }

theorem MarksOnly.restore {s t : State} (h : MarksOnly s t) : { t with written := s.written } = s := by
  obtain ⟨l, rfl⟩ := h; rfl

/-! The named updates. -/

theorem MarksOnly.setAcc {s t : State} (w : Word) (h : MarksOnly s t) : MarksOnly (s.setAcc w) (t.setAcc w) := by
  obtain ⟨l, rfl⟩ := h; exact ⟨l, rfl⟩

theorem MarksOnly.putWord {s t : State} (a : Nat) (w : Word) (h : MarksOnly s t) :
    MarksOnly (s.putWord a w) (t.putWord a w) := by
  obtain ⟨l, rfl⟩ := h; exact ⟨l.mark a, rfl⟩

theorem MarksOnly.jump {s t : State} (a : Nat) (h : MarksOnly s t) : MarksOnly (s.jump a) (t.jump a) := by
  obtain ⟨l, rfl⟩ := h; exact ⟨l, rfl⟩

theorem MarksOnly.setHalted {s t : State} (h : MarksOnly s t) : MarksOnly s.setHalted t.setHalted := by
  obtain ⟨l, rfl⟩ := h; exact ⟨l, rfl⟩

theorem MarksOnly.outEmit {s t : State} (w : Word) (h : MarksOnly s t) : MarksOnly (s.outEmit w) (t.outEmit w) := by
  obtain ⟨l, rfl⟩ := h; exact ⟨l, rfl⟩

theorem MarksOnly.setWaiting {s t : State} (b : Bool) (h : MarksOnly s t) :
    MarksOnly (s.setWaiting b) (t.setWaiting b) := by
  obtain ⟨l, rfl⟩ := h; exact ⟨l, rfl⟩

theorem MarksOnly.consumeInput {s t : State} (r : InputScan) (h : MarksOnly s t) :
    MarksOnly (s.consumeInput r) (t.consumeInput r) := by
  obtain ⟨l, rfl⟩ := h; exact ⟨l, rfl⟩

theorem MarksOnly.raise {s t : State} (e : Err) (h : MarksOnly s t) : MarksOnly (s.raise e) (t.raise e) := by
  obtain ⟨l, rfl⟩ := h; exact ⟨l, rfl⟩

/-! The fields a meaning reads. -/

theorem MarksOnly.capacity {s t : State} (h : MarksOnly s t) : t.capacity = s.capacity := by
  obtain ⟨l, rfl⟩ := h; rfl

theorem MarksOnly.acc {s t : State} (h : MarksOnly s t) : t.acc = s.acc := by obtain ⟨l, rfl⟩ := h; rfl

theorem MarksOnly.pc {s t : State} (h : MarksOnly s t) : t.pc = s.pc := by obtain ⟨l, rfl⟩ := h; rfl

theorem MarksOnly.mem {s t : State} (h : MarksOnly s t) : t.mem = s.mem := by obtain ⟨l, rfl⟩ := h; rfl

theorem MarksOnly.input {s t : State} (h : MarksOnly s t) : t.input = s.input := by obtain ⟨l, rfl⟩ := h; rfl

/-! The ways an instruction ends. -/

theorem MarksOnly.advance {s t : State} (h : MarksOnly s t) : MarksOnly s.advance t.advance := by
  rcases Nat.lt_or_ge (s.pc + 1) s.capacity with hp | hp
  · rw [s.advance_inRange hp, t.advance_at h.pc h.capacity hp]; exact h.jump _
  · rw [s.advance_raises hp, t.advance_raises (by rw [h.pc, h.capacity]; exact hp), h.pc]; exact h.raise _

theorem MarksOnly.branchTo {s t : State} (a : Nat) (h : MarksOnly s t) : MarksOnly (s.branchTo a) (t.branchTo a) := by
  rcases Nat.lt_or_ge a s.capacity with ha | ha
  · rw [s.branchTo_inRange ha, t.branchTo_inRange (h.capacity ▸ ha)]; exact h.jump a
  · rw [s.branchTo_raises ha, t.branchTo_raises (h.capacity ▸ ha)]; exact h.raise _

theorem MarksOnly.withOperand {s t : State} (a : Nat) {f g : Word → State} (h : MarksOnly s t)
    (hfg : ∀ v, MarksOnly (f v) (g v)) : MarksOnly (s.withOperand a f) (t.withOperand a g) := by
  rcases Nat.lt_or_ge a s.capacity with ha | ha
  · rw [s.withOperand_inRange f ha, t.withOperand_inRange g (h.capacity ▸ ha), h.mem]; exact hfg _
  · rw [s.withOperand_raises f ha, t.withOperand_raises g (h.capacity ▸ ha)]; exact h.raise _

theorem MarksOnly.storeResult {s t : State} (a : Nat) (w : Word) (h : MarksOnly s t) :
    MarksOnly (s.storeResult a w) (t.storeResult a w) := by
  rcases Nat.lt_or_ge a s.capacity with ha | ha
  · rw [s.storeResult_inRange w ha, t.storeResult_inRange w (h.capacity ▸ ha)]; exact (h.putWord a w).advance
  · rw [s.storeResult_raises w ha, t.storeResult_raises w (h.capacity ▸ ha)]; exact h.raise _

theorem MarksOnly.accResult {s t : State} (r : Except Err Word) (h : MarksOnly s t) :
    MarksOnly (s.accResult r) (t.accResult r) := by
  cases r with
  | error e => exact h.raise e
  | ok w => exact (h.setAcc w).advance

/-- An instruction that computes a new accumulator from `acc` and the Word its operand names. -/
theorem MarksOnly.accOperand {s t : State} (a : Nat) (f : Word → Word → Except Err Word) (h : MarksOnly s t) :
    MarksOnly (s.withOperand a fun v => s.accResult (f s.acc v)) (t.withOperand a fun v => t.accResult (f t.acc v)) := by
  rw [h.acc]; exact h.withOperand a fun v => h.accResult _

/-! Instructions and steps. -/

/-- Two answers, both a next state, that differ in the `written` bits only. -/
def AnswersMarksOnly (r r' : Result) : Prop := ∃ t u, r = .next t ∧ r' = .next u ∧ MarksOnly t u

theorem MarksOnly.next {t u : State} (h : MarksOnly t u) : AnswersMarksOnly (.next t) (.next u) :=
  ⟨t, u, rfl, rfl, h⟩

theorem execRead_marksOnly (a : Nat) {s t : State} (h : MarksOnly s t) :
    AnswersMarksOnly (execRead a s) (execRead a t) := by
  simp only [execRead, h.input]
  cases (scanInput s.input).word with
  | none => exact (h.consumeInput _).next
  | some w => exact (((h.consumeInput _).setWaiting false).storeResult a w).next

/-- A branch on a condition of the accumulator. -/
theorem MarksOnly.branchIf {s t : State} (a : Nat) (cond : Word → Bool) (h : MarksOnly s t) :
    MarksOnly (if cond s.acc then s.branchTo a else s.advance) (if cond t.acc then t.branchTo a else t.advance) := by
  rw [h.acc]
  split
  · exact h.branchTo a
  · exact h.advance

theorem exec_marksOnly (i : Instr) {s t : State} (h : MarksOnly s t) : AnswersMarksOnly (exec i s) (exec i t) := by
  cases i with
  | read a => exact execRead_marksOnly a h
  | write a => exact (h.withOperand a fun v => (h.outEmit v).advance).next
  | load a => exact (h.withOperand a fun v => h.accResult (.ok v)).next
  | store a => exact MarksOnly.next (by rw [h.acc]; exact h.storeResult a s.acc)
  | add a => exact (h.accOperand a fun x v => .ok (aluAdd x v)).next
  | subtract a => exact (h.accOperand a fun x v => .ok (aluSub x v)).next
  | multiply a => exact (h.accOperand a fun x v => .ok (aluMul x v)).next
  | divide a => exact (h.accOperand a aluDiv).next
  | branch a => exact (h.branchTo a).next
  | branchneg a => exact (h.branchIf a isNeg).next
  | branchzero a => exact (h.branchIf a isZero).next
  | halt a => exact h.setHalted.advance.next
  | noop a => exact h.advance.next

/-- The guards and the fetch of a step read no `written` bit. -/
theorem step_marksOnly {s t : State} (h : MarksOnly s t) : AnswersMarksOnly (step s) (step t) := by
  have hfault : t.fault = s.fault := by obtain ⟨l, rfl⟩ := h; rfl
  have hfinished : t.finished = s.finished := by obtain ⟨l, rfl⟩ := h; rfl
  have hfetch : t.fetch = s.fetch := by obtain ⟨l, rfl⟩ := h; rfl
  unfold step
  rw [hfault, hfinished, hfetch]
  split
  · exact h.next
  · split
    · exact h.setHalted.next
    · split
      · exact (h.raise _).next
      · exact exec_marksOnly _ h

/-- Settles O21: both steps answer a next state, and the two differ in the `written` bits only. -/
theorem writtenBitsAreInvisible : Obligations.WrittenBitsAreInvisible := by
  intro s t u l hs hu
  obtain ⟨t', u', ht', hu', h⟩ := step_marksOnly (s := s) ⟨l, rfl⟩
  obtain rfl : t = t' := Host.Outcome.next.inj (hs.symm.trans ht')
  obtain rfl : u = u' := Host.Outcome.next.inj (hu.symm.trans hu')
  exact h.restore

end Sys2Proof.Machine

/-! Memory access (20_memory.md sections 2 and 3): the bounds check for any integer address, what a write leaves of the
store, and the running of a Word that a STORE has placed. -/

namespace Sys2Proof.Machine

open Sys2Proof.Claims

/-! The bounds check (20_memory R46). -/

theorem State.inRange_eq_false {s : State} {a : Int} (h : a < 0 ∨ (s.capacity : Int) ≤ a) : s.inRange a = false := by
  simp only [State.inRange, decide_eq_false_iff_not]; omega

theorem State.memRead_raises (s : State) {a : Int} (h : a < 0 ∨ (s.capacity : Int) ≤ a) :
    s.memRead a = .error (.addressOutOfRange a) := by
  simp [State.memRead, State.inRange_eq_false h]

theorem State.memWrite_raises (s : State) {a : Int} (w : Word) (h : a < 0 ∨ (s.capacity : Int) ≤ a) :
    s.memWrite a w = .error (.addressOutOfRange a) := by
  simp [State.memWrite, State.inRange_eq_false h]

theorem hostWriteNext_raises {s : State} (w : Word) (h : s.capacity ≤ hostCursor s) :
    hostWriteNext s w = .error (.addressOutOfRange (hostCursor s)) :=
  s.memWrite_operand_raises w h

theorem hostWriteNext_inRange {s : State} (w : Word) (h : hostCursor s < s.capacity) :
    hostWriteNext s w = .ok (s.putWord (hostCursor s) w) :=
  s.memWrite_operand w h

/-! The store after a write. -/

/-- 10_state R33 (I6): a cell that is not written is not listed, so it reads `+000000`. -/
theorem StoreOk.read_unwritten {n : Nat} {m : Memory} {l : Marks} {a : Nat} (h : StoreOk n m l) (ha : a ∉ l) :
    m.read a = Word.zero :=
  m.read_of_not_listed a fun c hc hca => ha (hca ▸ h.listed_written c hc)

theorem State.putWord_sameMemoryExcept (s : State) (a : Nat) (w : Word) :
    SameMemoryExcept (effectiveAddress a) s (s.putWord a w) := by
  intro b hb
  have hne : b ≠ a := fun h => hb (congrArg Nat.cast h)
  exact ⟨s.mem.read_write_other w hne, by simp [hne]⟩

/-- Settles O19: the check decides each access, and in range a write is `putWord`. -/
theorem memoryAccessIsChecked : Obligations.MemoryAccessIsChecked := by
  intro s a w
  refine ⟨fun h => ⟨s.memRead_raises h, s.memWrite_raises w h⟩, hostWriteNext_raises w, fun h0 ha => ?_⟩
  obtain ⟨k, rfl⟩ := Int.eq_ofNat_of_zero_le h0
  rw [Int.ofNat_lt] at ha
  simp only [Int.toNat_natCast]
  have hread : s.memRead (k : Int) = .ok (s.mem.read k) := s.memRead_operand ha
  refine ⟨hread, fun hinv hk => ?_, s.putWord k w, s.memWrite_operand w ha, ?_, ?_,
    s.putWord_sameMemoryExcept k w, ⟨rfl, rfl, rfl⟩, ⟨rfl, rfl, rfl⟩, rfl, rfl, rfl⟩
  · obtain ⟨-, -, -, -, -, hstore⟩ := State.inv_iff.mp hinv
    rw [hread, hstore.read_unwritten hk]
  · have hreadBack := (s.putWord k w).memRead_operand (a := k) ha
    rwa [State.putWord_mem, Memory.read_write_same] at hreadBack
  · simp

/-! Running a stored Word. -/

/-- 41_sequencer R122: past the guards a step is the execution of the Word at `pc`. -/
theorem step_of_running {s : State} (hf : s.fault = none) (hh : s.halted = false) (hp : s.pc < s.capacity) :
    step s = exec (decode (s.mem.read s.pc)) s := by
  have hfetch : s.fetch = .ok (s.mem.read s.pc) := s.memRead_operand hp
  simp [step, hf, State.finished, hh, State.inRange, hp, hfetch]

/-- 43_load_store R151: a STORE in range, whose advance is in range too. -/
theorem exec_store_completes (s : State) {a : Nat} (ha : a < s.capacity) (hp : s.pc + 1 < s.capacity) :
    exec (.store a) s = .next ((s.putWord a s.acc).jump (s.pc + 1)) :=
  congrArg Host.Outcome.next (s.storeResult_completes s.acc ha hp)

/-- Settles O20: after the STORE, `pc` is at the cell it wrote, short of the sentinel, so the next step fetches that Word. -/
theorem storedWordIsExecutedNext : Obligations.StoredWordIsExecutedNext := by
  intro s hf hh hp hstore
  refine ⟨(s.putWord (s.pc + 1) s.acc).jump (s.pc + 1), ?_, rfl, rfl, ?_⟩
  · rw [step_of_running hf hh (by omega), hstore, exec_store_completes s (by omega) (by omega)]
  · have hsentinel : s.pc + 1 + 1 ≠ s.capacity := by omega
    have hrunning : ((s.putWord (s.pc + 1) s.acc).jump (s.pc + 1)).halted = false := by simp [hh, hsentinel]
    have hnext := step_of_running (s := (s.putWord (s.pc + 1) s.acc).jump (s.pc + 1)) hf hrunning
      (Nat.lt_of_succ_lt hp)
    simpa using hnext

/-! Faults of a memory operand. -/

/-- Settles O43: STORE is checked by its write, the six others by the read of their operand. -/
theorem memoryOperandOutOfRangeFaults : Obligations.MemoryOperandOutOfRangeFaults := by
  intro s a i hi ha
  simp only [List.mem_cons, List.not_mem_nil, or_false] at hi
  rcases hi with rfl | rfl | rfl | rfl | rfl | rfl | rfl
  case inr.inr.inl => exact congrArg Host.Outcome.next (s.storeResult_raises s.acc ha)
  all_goals exact congrArg Host.Outcome.next (s.withOperand_raises _ ha)

end Sys2Proof.Machine

/-! The frames of the instructions that store (42_io R140, 43_load_store R151): the last act of an instruction, which
moves `pc` or faults, and the write before it. -/

namespace Sys2Proof.Machine

open Sys2Proof.Claims

/-- What the last act of an instruction leaves unchanged: it changes `pc` and `halted`, or the latch and `waiting`. -/
structure EndFrame (s t : State) : Prop where
  acc : t.acc = s.acc
  mem : t.mem = s.mem
  written : t.written = s.written
  streams : SameStreams s t
  halted : SameHaltedOrSentinel s t
  status : SameStatusOrFault s t

theorem jump_endFrame (s : State) (a : Nat) : EndFrame s (s.jump a) := by
  refine ⟨rfl, rfl, rfl, ⟨rfl, rfl, rfl⟩, ?_, rfl, .inl ⟨rfl, rfl⟩⟩
  by_cases h : a + 1 = s.capacity
  · exact .inr ⟨by simp [h], h⟩
  · exact .inl (by simp [h])

theorem raise_endFrame (s : State) (e : Err) : EndFrame s (s.raise e) :=
  ⟨rfl, rfl, rfl, ⟨rfl, rfl, rfl⟩, .inl rfl, rfl, .inr ⟨⟨_, _, rfl⟩, rfl⟩⟩

theorem advance_endFrame (s : State) : EndFrame s s.advance := by
  rcases Nat.lt_or_ge (s.pc + 1) s.capacity with hp | hp
  · rw [s.advance_inRange hp]; exact jump_endFrame s _
  · rw [s.advance_raises hp]; exact raise_endFrame s _

/-- The last act of a store comes after the write, or is the fault that prevents it. -/
theorem storeResult_endFrame (s : State) (a : Nat) (w : Word) :
    EndFrame s (s.storeResult a w) ∨ EndFrame (s.putWord a w) (s.storeResult a w) := by
  rcases Nat.lt_or_ge a s.capacity with ha | ha
  · rw [s.storeResult_inRange w ha]; exact .inr (advance_endFrame _)
  · rw [s.storeResult_raises w ha]; exact .inl (raise_endFrame s _)

/-- What an instruction that ends by a store at `a` leaves unchanged. -/
structure StoreEndFrame (a : Nat) (s t : State) : Prop where
  acc : t.acc = s.acc
  memory : SameMemoryExcept (effectiveAddress a) s t
  streams : SameStreams s t
  halted : SameHaltedOrSentinel s t
  status : SameStatusOrFault s t

theorem storeResult_frame (s : State) (a : Nat) (w : Word) : StoreEndFrame a s (s.storeResult a w) := by
  rcases storeResult_endFrame s a w with h | h
  · exact ⟨h.acc, fun b _ => by rw [h.mem, h.written]; exact ⟨rfl, .rfl⟩, h.streams, h.halted, h.status⟩
  · exact ⟨h.acc, fun b hb => by rw [h.mem, h.written]; exact s.putWord_sameMemoryExcept a w b hb, h.streams, h.halted,
      h.status⟩

/-- Settles O51: STORE is a store of the accumulator and nothing before it. -/
theorem storeFrame : Obligations.StoreFrame := by
  intro s t a h
  obtain rfl : s.storeResult a s.acc = t := Host.Outcome.next.inj h
  obtain ⟨hacc, hmemory, hstreams, hhalted, hstatus⟩ := storeResult_frame s a s.acc
  exact ⟨hacc, hmemory, hstreams, hhalted, hstatus⟩

/-! READ's loop. -/

/-- 42_io R140: READ's loop takes the rejected lines from the front, and after them the line that parses, if one does. -/
theorem scanInput_takes (input : List Text) :
    ∃ taken, input = taken ++ (scanInput input).rest ∧
      (((scanInput input).word = none ∧ (scanInput input).rejected = taken) ∨
        ∃ line, taken = (scanInput input).rejected ++ [line]) := by
  induction input with
  | nil => exact ⟨[], rfl, .inl ⟨rfl, rfl⟩⟩
  | cons line rest ih =>
    cases hparse : parseWord line with
    | some w =>
      rw [scanInput_valid rest hparse]
      exact ⟨[line], rfl, .inr ⟨line, rfl⟩⟩
    | none =>
      rw [scanInput_malformed rest hparse]
      obtain ⟨taken, hrest, hrejected⟩ := ih
      refine ⟨line :: taken, congrArg (line :: ·) hrest, ?_⟩
      rcases hrejected with ⟨hnone, rfl⟩ | ⟨last, rfl⟩
      · exact .inl ⟨hnone, rfl⟩
      · exact .inr ⟨last, rfl⟩

/-- 42_io R140: what READ can do: wait, or store the Word it obtained. -/
theorem exec_read_cases {s t : State} {a : Nat} (h : exec (.read a) s = .next t) :
    t = s.consumeInput (scanInput s.input) ∨
    ∃ w, t = ((s.consumeInput (scanInput s.input)).setWaiting false).storeResult a w := by
  simp only [exec, execRead] at h
  split at h
  · exact .inl (Host.Outcome.next.inj h).symm
  · rename_i w _; exact .inr ⟨w, (Host.Outcome.next.inj h).symm⟩

/-- Settles O52: the loop touches `waiting`, `in` and `errlog` only, and the store that may follow no stream. -/
theorem readFrame : Obligations.ReadFrame := by
  intro s t a h
  obtain ⟨taken, hinput, htaken⟩ := scanInput_takes s.input
  have hbad : (scanInput s.input).rejected = taken ∨ ∃ line, taken = (scanInput s.input).rejected ++ [line] :=
    htaken.imp_left And.right
  rcases exec_read_cases h with rfl | ⟨w, rfl⟩
  · exact ⟨rfl, rfl, rfl, fun b _ => ⟨rfl, .rfl⟩, .inl rfl, .inl rfl, taken, _, hinput, rfl, hbad⟩
  · obtain ⟨hacc, hmemory, ⟨hin, hout, herr⟩, hhalted, hcapacity, hfault⟩ :=
      storeResult_frame ((s.consumeInput (scanInput s.input)).setWaiting false) a w
    refine ⟨hacc, hout, hcapacity, hmemory, hhalted, hfault.imp And.left And.left, taken, _, ?_, herr, hbad⟩
    rw [hin]; exact hinput

end Sys2Proof.Machine

/-! The append cursor and the host's `WriteNext` and `Clear` (20_memory R52, R53). -/

namespace Sys2Proof.Machine

open Sys2Proof.Claims

theorem Marks.cursor_le_iff {l : Marks} {n : Nat} : l.cursor ≤ n ↔ ∀ a ∈ l, a < n :=
  ⟨fun h _ ha => (Marks.lt_cursor ha).trans_le h, Marks.cursor_le⟩

theorem Marks.cursor_mark (l : Marks) (a : Nat) : (l.mark a).cursor = max (a + 1) l.cursor :=
  eq_of_forall_ge_iff fun n => by simp [Marks.cursor_le_iff]

/-- Under the invariant the cursor is in range exactly when the last cell is not written. -/
theorem State.Inv.cursor_lt_capacity_iff {s : State} (h : s.Inv) :
    hostCursor s < s.capacity ↔ s.capacity - 1 ∉ s.written := by
  obtain ⟨⟨hcap, -⟩, -, -, -, -, hstore⟩ := State.inv_iff.mp h
  have hle : hostCursor s ≤ s.capacity := Marks.cursor_le hstore.written_lt
  constructor
  · intro hlt hlast
    have : s.capacity - 1 < hostCursor s := Marks.lt_cursor hlast
    omega
  · intro hlast
    refine lt_of_le_of_ne hle fun heq => hlast ?_
    have hne : s.written ≠ [] := fun hnil => by rw [hostCursor_of_written_nil hnil] at heq; omega
    exact heq ▸ Marks.cursor_pred_mem hne

/-- Settles O56: in range `WriteNext` is `putWord` at the cursor, and the cursor is out of range only when cell `N-1` is
written. -/
theorem writeNextAppends : Obligations.WriteNextAppends := by
  intro s w hinv
  have hstore : StoreOk s.capacity s.mem s.written := by
    obtain ⟨-, -, -, -, -, hstore⟩ := State.inv_iff.mp hinv; exact hstore
  have hle : hostCursor s ≤ s.capacity := Marks.cursor_le hstore.written_lt
  refine ⟨fun a => Marks.lt_cursor, ?_, hle, fun hlast => ?_, fun hlast => ?_⟩
  · by_cases hnil : s.written = []
    · exact .inl (hostCursor_of_written_nil hnil)
    · exact .inr (Marks.cursor_pred_mem hnil)
  · refine ⟨_, hostWriteNext_inRange w (hinv.cursor_lt_capacity_iff.mpr hlast), by simp, ?_,
      s.putWord_sameMemoryExcept _ w⟩
    exact (Marks.cursor_mark _ _).trans (max_eq_left (Nat.le_succ _))
  · have hfull : hostCursor s = s.capacity :=
      le_antisymm hle (Nat.not_lt.mp fun hlt => hinv.cursor_lt_capacity_iff.mp hlt hlast)
    rw [hostWriteNext_raises w hfull.ge, hfull]

/-! Loading a sequence of Words. -/

@[simp] theorem State.loadFrom_acc (s : State) (i : Nat) (ws : List Word) : (s.loadFrom i ws).acc = s.acc := by
  rw [s.loadFrom_frame i ws]

@[simp] theorem State.loadFrom_pc (s : State) (i : Nat) (ws : List Word) : (s.loadFrom i ws).pc = s.pc := by
  rw [s.loadFrom_frame i ws]

@[simp] theorem State.loadFrom_waiting (s : State) (i : Nat) (ws : List Word) :
    (s.loadFrom i ws).waiting = s.waiting := by rw [s.loadFrom_frame i ws]

theorem State.loadFrom_sameStreams (s : State) (i : Nat) (ws : List Word) : SameStreams s (s.loadFrom i ws) := by
  rw [s.loadFrom_frame i ws]; exact ⟨rfl, rfl, rfl⟩

theorem State.loadFrom_read_below (s : State) {i a : Nat} (ws : List Word) (h : a < i) :
    (s.loadFrom i ws).mem.read a = s.mem.read a := by
  induction ws generalizing s i with
  | nil => rfl
  | cons w ws ih => exact (ih (s.putWord i w) (by omega)).trans (s.mem.read_write_other w (by omega))

/-- The cell `k` places above the start holds Word `k` of the sequence, or what it held if the sequence is shorter. -/
theorem State.loadFrom_read_add (s : State) (i k : Nat) (ws : List Word) :
    (s.loadFrom i ws).mem.read (i + k) = ws.getD k (s.mem.read (i + k)) := by
  induction ws generalizing s i k with
  | nil => rfl
  | cons w ws ih =>
    cases k with
    | zero => exact ((s.putWord i w).loadFrom_read_below ws (Nat.lt_succ_self i)).trans (s.mem.read_write_same i w)
    | succ k =>
      have htail := ih (s.putWord i w) (i + 1) k
      rw [State.putWord_mem, s.mem.read_write_other w (by omega), Nat.add_right_comm] at htail
      exact htail

theorem State.mem_written_loadFrom {s : State} {i a : Nat} {ws : List Word} :
    a ∈ (s.loadFrom i ws).written ↔ (i ≤ a ∧ a < i + ws.length) ∨ a ∈ s.written := by
  induction ws generalizing s i with
  | nil =>
    have : ¬(i ≤ a ∧ a < i) := by omega
    simp [State.loadFrom, this]
  | cons w ws ih =>
    have hrange : (i ≤ a ∧ a < i + (ws.length + 1)) ↔ a = i ∨ (i + 1 ≤ a ∧ a < i + 1 + ws.length) := by omega
    rw [State.loadFrom, ih, State.putWord_written, Marks.mem_mark, List.length_cons, hrange]
    tauto

theorem State.loadFrom_written_wf {s : State} {i : Nat} (ws : List Word) (h : s.written.wf) :
    (s.loadFrom i ws).written.wf := by
  induction ws generalizing s i with
  | nil => exact h
  | cons w ws ih => exact ih (Marks.mark_wf i h)

/-! The `written` bits of exactly the cells below `n`. -/

theorem Marks.cursor_of_mem_iff_lt {l : Marks} {n : Nat} (h : ∀ a, a ∈ l ↔ a < n) : l.cursor = n :=
  eq_of_forall_ge_iff fun m => by simp only [Marks.cursor_le_iff, h]; exact forall_lt_iff_le

theorem Marks.length_of_mem_iff_lt {l : Marks} {n : Nat} (hwf : l.wf) (h : ∀ a, a ∈ l ↔ a < n) : l.length = n := by
  have hcells : l.toFinset = Finset.range n := by ext a; simp [h]
  rw [← List.toFinset_card_of_nodup (hwf.imp Nat.ne_of_lt), hcells, Finset.card_range]

/-- Settles O57: `Clear` loads the sequence from 0 into an empty store. -/
theorem clearReloadsStore : Obligations.ClearReloadsStore := by
  intro s ws
  refine ⟨fun h => if_pos h, fun h => ⟨s.emptyStore.loadFrom 0 ws, if_neg (Nat.not_lt.mpr h), fun a => ?_, ?_⟩⟩
  · simpa using s.emptyStore.loadFrom_read_add 0 a ws
  have hwritten : ∀ a, a ∈ (s.emptyStore.loadFrom 0 ws).written ↔ a < ws.length := fun a => by
    simp [State.mem_written_loadFrom]
  have hwf : (s.emptyStore.loadFrom 0 ws).written.wf := State.loadFrom_written_wf ws List.Pairwise.nil
  exact ⟨hwritten, Marks.cursor_of_mem_iff_lt hwritten, Marks.length_of_mem_iff_lt hwf hwritten,
    s.emptyStore.loadFrom_sameStreams 0 ws, ⟨by simp, by simp, by simp⟩, by simp, by simp, by simp⟩

end Sys2Proof.Machine

/-! The diagnostic window (20_memory R55, decision D16). -/

namespace Sys2Proof.Machine

open Sys2Proof.Claims

/-- A window of at most `N` cells begins at its centred address, clipped to where it stays inside `[0, N)`. -/
theorem previewLow_eq_clip {s : State} (center : Int) {n : Int} (h : n ≤ s.capacity) :
    previewLow s center n = max 0 (min (center - n / 2) (s.capacity - n)) := by
  simp only [previewLow]; split <;> split <;> omega

theorem hostPreview_of_nonpos (s : State) (center : Int) {size : Int} (h : size ≤ 0) :
    hostPreview s center size = [] :=
  if_pos ((min_le_left size _).trans h)

/-- The window as the cells from an address `lo`, without the case of an empty window. -/
theorem hostPreview_eq_map {s : State} {center size : Int} {lo : Nat}
    (hlo : previewLow s center (windowSize s size) = lo) :
    hostPreview s center size =
      (List.range (windowSize s size).toNat).map fun k => (lo + k, s.mem.read (lo + k)) := by
  have hcount : previewCount s size = windowSize s size := rfl
  unfold hostPreview
  simp only [hcount, hlo, Int.toNat_natCast]
  split
  · rename_i h; rw [Int.toNat_of_nonpos h]; rfl
  · rfl

/-- Settles O58: the window is the cells from the clipped address, and each clause is arithmetic on the clip. -/
theorem previewIsClippedWindow : Obligations.PreviewIsClippedWindow := by
  intro s center size
  refine ⟨hostPreview_of_nonpos s center, fun hsize hcap => ?_⟩
  have hn : 0 < windowSize s size ∧ windowSize s size ≤ s.capacity := by simp only [windowSize]; omega
  have hclip := previewLow_eq_clip center hn.2
  obtain ⟨lo, hlo⟩ : ∃ lo : Nat, previewLow s center (windowSize s size) = lo :=
    Int.eq_ofNat_of_zero_le (hclip ▸ le_max_left _ _)
  have hlength : (hostPreview s center size).length = (windowSize s size).toNat := by simp [hostPreview_eq_map hlo]
  rw [hlo] at hclip
  simp only [hlength, unshiftedLow]
  refine ⟨lo, by omega, by omega, by omega, by omega, by omega, fun k hk => ?_, by omega⟩
  simp [hostPreview_eq_map hlo, hk]

end Sys2Proof.Machine

/-! The decoder and the encoder (30_encoding R70 to R77): what each field of a decoded Word is, and the two round trips
between Words and instructions. -/

namespace Sys2Proof

/-- 30_encoding R75, R76: every operation field but the twelve codes is NOOP. -/
theorem decodeFields_of_not_mem {f a : Nat} (h : f ∉ knownCodes) : decodeFields f a = .noop a := by
  unfold decodeFields
  split
  case h_13 => rfl
  all_goals exact absurd (by decide) h

/-- 30_encoding R75: a known operation field is the one its instruction is written with. -/
theorem opfield_decodeFields {f : Nat} (a : Nat) (h : f ∈ knownCodes) : (decodeFields f a).opfield = f := by
  fin_cases h <;> rfl

@[simp] theorem operand_decodeFields (f a : Nat) : (decodeFields f a).operand = a := by
  unfold decodeFields; split <;> rfl

/-- 30_encoding R77: the name depends on the operation field only. -/
theorem name_decodeFields (f a b : Nat) : (decodeFields f a).name = (decodeFields f b).name := by
  unfold decodeFields; split <;> rfl

theorem Word.opfield_le (w : Word) : w.opfield ≤ 999 := by unfold Word.opfield; omega

/-- 30_encoding R70: the magnitude is made of its two fields. -/
theorem Word.mag_eq_fields (w : Word) : w.mag.val = 1000 * w.opfield + w.operand :=
  (Nat.div_add_mod w.mag.val 1000).symm

/-- 30_encoding R70, R74, R77: a well-formed instruction, encoded with either sign, decodes to itself. -/
theorem decode_encodeSigned {i : Instr} (sg : Sign) (h : i.wellFormed = true) : decode (encodeSigned sg i) = i := by
  cases i with
  | read a => exact Laws.RoundTrip.read a h sg
  | write a => exact Laws.RoundTrip.write a h sg
  | load a => exact Laws.RoundTrip.load a h sg
  | store a => exact Laws.RoundTrip.store a h sg
  | add a => exact Laws.RoundTrip.add a h sg
  | subtract a => exact Laws.RoundTrip.subtract a h sg
  | multiply a => exact Laws.RoundTrip.multiply a h sg
  | divide a => exact Laws.RoundTrip.divide a h sg
  | branch a => exact Laws.RoundTrip.branch a h sg
  | branchneg a => exact Laws.RoundTrip.branchneg a h sg
  | branchzero a => exact Laws.RoundTrip.branchzero a h sg
  | halt a => exact Laws.RoundTrip.halt a h sg
  | noop a => exact Laws.RoundTrip.noop a h sg

/-- 30_encoding R70, R75: an instruction word, encoded again with its own sign, is itself. -/
theorem encodeSigned_decode {w : Word} (h : w.opfield ∈ knownCodes) : encodeSigned w.sign (decode w) = w := by
  have hmag : Fin.ofNat 1000000 (1000 * (decode w).opfield + (decode w).operand) = w.mag := by
    rw [decode, opfield_decodeFields _ h, operand_decodeFields, ← w.mag_eq_fields]
    exact Fin.ofNat_val_eq_self w.mag
  rw [encodeSigned, hmag]

/-- Settles O3: the known operation fields re-encode, the others decode to NOOP. -/
theorem instructionWordsReencode : Obligations.InstructionWordsReencode :=
  fun _ => ⟨encodeSigned_decode, decodeFields_of_not_mem⟩

end Sys2Proof

/-! The packed form (30_encoding R90, R91): it loses nothing, and the opcode table's masks read the operation field. -/

namespace Sys2Proof

/-- What the nibbles of a pattern spell, written in nibbles again, is the pattern. -/
theorem bcdOf_of_ofBcd {n p m : Nat} (h : ofBcd n p = some m) : m < 10 ^ n ∧ bcdOf n m = p % 16 ^ n := by
  induction n generalizing p m with
  | zero => cases h; simp [bcdOf, Nat.mod_one]
  | succ n ih =>
    rw [ofBcd_succ] at h
    split at h
    · rename_i hnibble
      obtain ⟨r, hr, rfl⟩ := Option.map_eq_some_iff.1 h
      obtain ⟨hlt, hbcd⟩ := ih hr
      have hdigit : (p % 16 + 10 * r) % 10 = p % 16 := by omega
      have hrest : (p % 16 + 10 * r) / 10 = r := by omega
      refine ⟨by rw [pow_succ]; omega, ?_⟩
      rw [bcdOf_succ, hdigit, hrest, hbcd, pow_succ, Nat.mul_comm (16 ^ n) 16, Nat.mod_mul]
    · cases h

theorem signBit_signOfBit {b : Nat} (h : b < 2) : signBit (signOfBit b) = b := by
  interval_cases b <;> rfl

/-- 30_encoding R90: unpacking a packed Word gives it back. -/
@[simp] theorem unpack_pack (w : Word) : unpack (pack w) = .ok w := by
  have hbcd := bcdOf_lt 6 w.mag.val
  have hlow : (pack w).toNat % 2 ^ 24 = bcdOf 6 w.mag.val := by rw [pack_toNat]; omega
  have hhigh : (pack w).toNat / 2 ^ 24 = signBit w.sign := by rw [pack_toNat]; omega
  have hmag : w.mag.val % 10 ^ 6 = w.mag.val := Nat.mod_eq_of_lt w.mag.isLt
  simp only [unpack, hlow, hhigh, ofBcd_bcdOf, hmag, signOfBit_signBit]
  rw [Fin.ofNat_val_eq_self]

/-- 30_encoding R90: a pattern that unpacks to a Word is that Word's packed form. -/
theorem pack_of_unpack {p : BitVec 25} {w : Word} (h : unpack p = .ok w) : pack w = p := by
  unfold unpack at h
  split at h
  · cases h
  · rename_i m hm
    cases h
    obtain ⟨hlt, hbcd⟩ := bcdOf_of_ofBcd hm
    apply BitVec.eq_of_toNat_eq
    rw [pack_toNat, signBit_signOfBit (by omega), Fin.val_ofNat, Nat.mod_eq_of_lt (by omega), hbcd]
    omega

/-- Settles O4: pack and unpack are inverse to each other. -/
theorem packedFormIsFaithful : Obligations.PackedFormIsFaithful := ⟨unpack_pack, fun _ _ => pack_of_unpack⟩

/-- The packed decoder reads a packed Word as the decoder reads the Word. -/
@[simp] theorem decodePacked_pack (w : Word) : decodePacked (pack w) = .ok (decode w) := by
  rw [decodePacked, unpack_pack]; rfl

/-- Settles O2: the packed form gives the Word back, and the Word its instruction. -/
theorem packedEncodingsDecodeBack : Obligations.PackedEncodingsDecodeBack := by
  intro i sg h
  rw [decodePacked_pack, decode_encodeSigned sg h]

/-- Settles O1: each pattern evaluates to its instruction. -/
theorem tabledWordsDecode : Obligations.TabledWordsDecode :=
  ⟨rfl, rfl, rfl, rfl, rfl, rfl, rfl, rfl, rfl, rfl, rfl, rfl, rfl, rfl⟩

/-- The three high nibbles of a packed magnitude are those of the operation field. -/
theorem bcdOf_six (m : Nat) : bcdOf 6 m = bcdOf 3 m + 4096 * bcdOf 3 (m / 1000) := by
  simp only [bcdOf]; omega

/-- Two three-digit numbers with the same nibbles are equal. -/
theorem bcdOf_three_inj {f g : Nat} (hf : f ≤ 999) (hg : g ≤ 999) : bcdOf 3 f = bcdOf 3 g ↔ f = g := by
  refine ⟨fun h => ?_, congrArg _⟩
  have hmod : f % 10 ^ 3 = g % 10 ^ 3 := by simpa [ofBcd_bcdOf] using congrArg (ofBcd 3) h
  omega

/-- The mask of the opcode table keeps bits 12 to 23. -/
theorem and_rowMask (x : Nat) : x &&& 0x0FFF000 = 4096 * (x / 4096 % 4096) := by
  apply Nat.eq_of_testBit_eq
  intro i
  have hmask : 0x0FFF000 = 2 ^ 12 * (2 ^ 12 - 1) := by norm_num
  have h4096 : 4096 = 2 ^ 12 := by norm_num
  rw [hmask, h4096]
  simp only [Nat.testBit_and, Nat.testBit_two_pow_mul, Nat.testBit_mod_two_pow, Nat.testBit_div_two_pow,
    Nat.testBit_two_pow_sub_one]
  by_cases h : 12 ≤ i
  · simp [h, Bool.and_comm]
  · simp [h]

/-- 30_encoding R91: the row of the opcode table for an operation field. -/
def opRowOf (f : Nat) : OpRow := ⟨(decodeFields f 0).name, BitVec.ofNat 25 (4096 * bcdOf 3 f), 0x0FFF000⟩

theorem opRows_eq_map : opRows = knownCodes.map opRowOf := by decide

/-- 30_encoding R91: the row for an operation field selects the Words that have this field. -/
theorem opRowOf_selects_pack {f : Nat} (w : Word) (hf : f ≤ 999) :
    (opRowOf f).selects (pack w) = decide (f = w.opfield) := by
  have hlow := bcdOf_lt 3 w.mag.val
  have hfield := bcdOf_lt 3 w.opfield
  have hcode := bcdOf_lt 3 f
  have hmasked : (pack w &&& 0x0FFF000).toNat = 4096 * bcdOf 3 w.opfield := by
    have hmask : (0x0FFF000 : BitVec 25).toNat = 0x0FFF000 := rfl
    rw [BitVec.toNat_and, hmask, and_rowMask, pack_toNat, bcdOf_six, ← Word.opfield]
    omega
  have hpattern : (BitVec.ofNat 25 (4096 * bcdOf 3 f)).toNat = 4096 * bcdOf 3 f := by
    rw [BitVec.toNat_ofNat]; omega
  rw [Bool.eq_iff_iff, OpRow.selects, opRowOf, beq_iff_eq, decide_eq_true_iff, BitVec.toNat_inj.symm, hmasked, hpattern,
    ← bcdOf_three_inj hf w.opfield_le]
  omega

/-- 30_encoding R91: on a packed Word the search of the opcode table is the search for its operation field. -/
theorem find?_opRows_pack (w : Word) :
    opRows.find? (fun r => r.selects (pack w)) = (knownCodes.find? (· = w.opfield)).map opRowOf := by
  have hsmall : ∀ f ∈ knownCodes, f ≤ 999 := by decide
  rw [opRows_eq_map, List.find?_map]
  congr 1
  exact List.find?_congr fun f hf => opRowOf_selects_pack w (hsmall f hf)

/-- Settles O5: the search finds the row of the Word's own operation field, or the field is not a known one. -/
theorem tableRowsNameDecodedInstruction : Obligations.TableRowsNameDecodedInstruction := by
  intro w
  rw [tableName, find?_opRows_pack, decode]
  cases hfind : knownCodes.find? (· = w.opfield) with
  | none =>
    have hunknown : w.opfield ∉ knownCodes := fun h => List.find?_eq_none.1 hfind _ h (by simp)
    rw [decodeFields_of_not_mem hunknown]
    rfl
  | some f =>
    obtain rfl : f = w.opfield := by simpa using List.find?_some hfind
    exact name_decodeFields w.opfield 0 w.operand

end Sys2Proof

/-! No stop of the model (30_encoding R76, 60_exceptions R185): every instruction and every step has a next state. -/

namespace Sys2Proof.Machine

/-- Every instruction answers a next state: READ whether or not a line parses, every other by its one state. -/
theorem exec_next (i : Instr) (s : State) : ∃ t, exec i s = .next t := by
  cases i with
  | read a =>
    simp only [exec, execRead]
    cases (scanInput s.input).word with
    | none => exact ⟨_, rfl⟩
    | some w => exact ⟨_, rfl⟩
  | _ => exact ⟨_, rfl⟩

/-- Settles O13: the guards and a failed fetch answer next states of their own, and so does every instruction. -/
theorem everyStepAnswersNext : Obligations.EveryStepAnswersNext := by
  intro s
  unfold step
  split
  · exact ⟨s, rfl⟩
  · split
    · exact ⟨s.setHalted, rfl⟩
    · split
      · exact ⟨_, rfl⟩
      · exact exec_next _ s

end Sys2Proof.Machine

/-! Digits and blanks (30_encoding R80, R81): which characters they are, and the number that a body of digits spells. -/

namespace Sys2Proof.Machine

theorem isDigitChar_iff {c : Char} : isDigitChar c = true ↔ 48 ≤ c.toNat ∧ c.toNat ≤ 57 := by
  simp [isDigitChar]

theorem digitValue_lt {c : Char} (h : isDigitChar c = true) : digitValue c < 10 := by
  rw [isDigitChar_iff] at h; unfold digitValue; omega

/-- 30_encoding R81: a digit is not trimmed. -/
theorem isBlankChar_of_digit {c : Char} (h : isDigitChar c = true) : isBlankChar c = false := by
  rw [isDigitChar_iff] at h
  simp only [isBlankChar, Bool.or_eq_false_iff, beq_eq_false_iff_ne, Bool.and_eq_false_iff, decide_eq_false_iff_not]
  omega

theorem isBlankChar_signChar (s : Sign) : isBlankChar (signChar s) = false := by cases s <;> decide

theorem toNat_digitChar (d : Nat) : (digitChar d).toNat = 48 + d % 10 := by
  have hten : ∀ k < 10, (Char.ofNat (0x30 + k)).toNat = 48 + k := by decide
  exact hten _ (Nat.mod_lt d (by decide))

theorem isDigitChar_digitChar (d : Nat) : isDigitChar (digitChar d) = true := by
  rw [isDigitChar_iff, toNat_digitChar]; omega

@[simp] theorem digitValue_digitChar (d : Nat) : digitValue (digitChar d) = d % 10 := by
  rw [digitValue, toNat_digitChar]; omega

/-- A digit is the digit of every number that ends in it. -/
theorem digitChar_eq {c : Char} {d : Nat} (h : isDigitChar c = true) (hd : d % 10 = digitValue c) : digitChar d = c := by
  rw [isDigitChar_iff] at h
  rw [← Char.toNat_inj, toNat_digitChar, hd, digitValue]
  omega

theorem decimalValue_concat (t : Text) (c : Char) : decimalValue (t ++ [c]) = 10 * decimalValue t + digitValue c := by
  simp [decimalValue]

theorem decimalValue_append (t u : Text) : decimalValue (t ++ u) = 10 ^ u.length * decimalValue t + decimalValue u := by
  induction u using List.reverseRecOn with
  | nil => simp [decimalValue]
  | append_singleton u c ih =>
    rw [← List.append_assoc, decimalValue_concat, decimalValue_concat, ih, List.length_append, pow_add]
    simp only [List.length_singleton]
    ring

theorem decimalValue_lt {t : Text} (h : ∀ c ∈ t, isDigitChar c = true) : decimalValue t < 10 ^ t.length := by
  induction t using List.reverseRecOn with
  | nil => simp [decimalValue]
  | append_singleton t c ih =>
    have hlast := digitValue_lt (h c (by simp))
    have hinit := ih fun d hd => h d (by simp [hd])
    rw [decimalValue_concat, List.length_append, List.length_singleton, pow_succ]
    omega

/-! The three digits of a field (30_encoding R73). -/

@[simp] theorem length_threeDigits (n : Nat) : (threeDigits n).length = 3 := rfl

theorem isDigitChar_of_mem_threeDigits {n : Nat} {c : Char} (h : c ∈ threeDigits n) : isDigitChar c = true := by
  simp only [threeDigits, List.mem_cons, List.not_mem_nil, or_false] at h
  rcases h with rfl | rfl | rfl <;> exact isDigitChar_digitChar _

theorem decimalValue_threeDigits {n : Nat} (h : n ≤ 999) : decimalValue (threeDigits n) = n := by
  simp only [decimalValue, threeDigits, List.foldl_cons, List.foldl_nil, digitValue_digitChar]
  omega

/-- Three digits are the three digits of the number they spell. -/
theorem threeDigits_decimalValue {t : Text} (hlen : t.length = 3) (h : ∀ c ∈ t, isDigitChar c = true) :
    threeDigits (decimalValue t) = t := by
  obtain ⟨a, b, c, rfl⟩ := List.length_eq_three.1 hlen
  simp only [List.forall_mem_cons] at h
  obtain ⟨ha, hb, hc, -⟩ := h
  have := digitValue_lt ha
  have := digitValue_lt hb
  have := digitValue_lt hc
  simp only [threeDigits, decimalValue, List.foldl_cons, List.foldl_nil]
  rw [digitChar_eq ha (by omega), digitChar_eq hb (by omega), digitChar_eq hc (by omega)]

end Sys2Proof.Machine

/-! The parser (30_encoding R80, R84): trimming and the sign, the body after upconversion, and the texts it accepts. -/

namespace Sys2Proof.Machine

/-- 30_encoding R81: text without whitespace is not trimmed. -/
theorem trimText_of_no_blank {t : Text} (h : ∀ c ∈ t, isBlankChar c = false) : trimText t = t := by
  have hfix : ∀ u : Text, (∀ c ∈ u, isBlankChar c = false) → u.dropWhile isBlankChar = u := by
    intro u hu
    cases u with
    | nil => rfl
    | cons c u => exact List.dropWhile_cons_of_neg (by simp [hu])
  rw [trimText, hfix t h, hfix t.reverse fun c hc => h c (List.mem_reverse.1 hc), List.reverse_reverse]

theorem trimText_signed (s : Sign) {body : Text} (h : ∀ c ∈ body, isDigitChar c = true) :
    trimText (signChar s :: body) = signChar s :: body :=
  trimText_of_no_blank (List.forall_mem_cons.2 ⟨isBlankChar_signChar s, fun c hc => isBlankChar_of_digit (h c hc)⟩)

@[simp] theorem splitSign_signed (s : Sign) (body : Text) : splitSign (signChar s :: body) = (s, body) := by
  cases s <;> rfl

/-- 30_encoding R80: digits without a leading sign are taken as positive. -/
theorem splitSign_digits {body : Text} (h : ∀ c ∈ body, isDigitChar c = true) : splitSign body = (.plus, body) := by
  unfold splitSign
  split
  · exact absurd (h '+' (by simp)) (by decide)
  · exact absurd (h '-' (by simp)) (by decide)
  · rfl

/-- 30_encoding R80: the text is its sign and its body, or is its body and the sign is plus. -/
theorem splitSign_spells (t : Text) :
    t = signChar (splitSign t).1 :: (splitSign t).2 ∨ (t = (splitSign t).2 ∧ (splitSign t).1 = .plus) := by
  unfold splitSign
  split
  · exact .inl rfl
  · exact .inl rfl
  · exact .inr ⟨rfl, rfl⟩

/-- 30_encoding R84: only a body of four characters is touched. -/
theorem widenBody_of_length_ne_four {body : Text} (h : body.length ≠ 4) : widenBody body = some body := by
  unfold widenBody
  split
  · exact absurd rfl h
  · rfl

theorem widenBody_four (b0 b1 b2 b3 : Char) :
    widenBody [b0, b1, b2, b3] =
      if [b0, b1, b2, b3].all isDigitChar then some (upconvert b0 b1 b2 b3) else none := rfl

theorem length_upconvert (b0 b1 b2 b3 : Char) : (upconvert b0 b1 b2 b3).length = 6 := by
  unfold upconvert; split <;> rfl

theorem isDigitChar_of_mem_upconvert {b0 b1 b2 b3 : Char} (h : ∀ c ∈ [b0, b1, b2, b3], isDigitChar c = true) :
    ∀ c ∈ upconvert b0 b1 b2 b3, isDigitChar c = true := by
  have hzero : isDigitChar '0' = true := by decide
  unfold upconvert
  split <;> simpa [hzero] using h

/-- 30_encoding R84: a known code and its operand are widened to three digits each, any other four digits keep their
value. -/
theorem decimalValue_upconvert {b0 b1 b2 b3 : Char} (h : ∀ c ∈ [b0, b1, b2, b3], isDigitChar c = true) :
    decimalValue (upconvert b0 b1 b2 b3) =
      if decimalValue [b0, b1, b2, b3] / 100 ∈ knownCodes then
        1000 * (decimalValue [b0, b1, b2, b3] / 100) + decimalValue [b0, b1, b2, b3] % 100
      else decimalValue [b0, b1, b2, b3] := by
  have hzero : digitValue '0' = 0 := by decide
  have hlow : decimalValue [b2, b3] < 100 := decimalValue_lt (t := [b2, b3]) fun c hc => h c (by simp_all)
  have hsum : decimalValue [b0, b1, b2, b3] = 100 * decimalValue [b0, b1] + decimalValue [b2, b3] :=
    decimalValue_append [b0, b1] [b2, b3]
  have hcode : decimalValue [b0, b1, b2, b3] / 100 = decimalValue [b0, b1] := by omega
  have hoperand : decimalValue [b0, b1, b2, b3] % 100 = decimalValue [b2, b3] := by omega
  have hvalue : decimalValue [b0, b1] = 10 * digitValue b0 + digitValue b1 := by simp [decimalValue]
  rw [hcode, hoperand, hsum, hvalue]
  unfold upconvert
  simp only [List.contains_iff_mem]
  split <;> simp [decimalValue, hzero] <;> omega

/-- 30_encoding R80, R84: the body becomes six digits that spell the magnitude. -/
def WidensTo (body : Text) (m : Nat) : Prop :=
  ∃ wide, widenBody body = some wide ∧ wide.length = 6 ∧ (∀ c ∈ wide, isDigitChar c = true) ∧ decimalValue wide = m

/-- 30_encoding R84: a body of four digits spells what its upconversion spells. -/
theorem widensTo_four {b0 b1 b2 b3 : Char} {m : Nat} :
    WidensTo [b0, b1, b2, b3] m ↔
      (∀ c ∈ [b0, b1, b2, b3], isDigitChar c = true) ∧ decimalValue (upconvert b0 b1 b2 b3) = m := by
  unfold WidensTo
  by_cases hd : ∀ c ∈ [b0, b1, b2, b3], isDigitChar c = true
  · have hwide := isDigitChar_of_mem_upconvert hd
    rw [widenBody_four, if_pos (List.all_eq_true.2 hd)]
    simp only [Option.some.injEq, exists_eq_left', length_upconvert, true_and, and_iff_right hwide, and_iff_right hd]
  · rw [widenBody_four, if_neg (mt List.all_eq_true.1 hd)]
    simp only [reduceCtorEq, false_and, exists_false, hd]

/-- 30_encoding R80: any other body must have six digits. -/
theorem widensTo_of_length_ne_four {body : Text} {m : Nat} (h : body.length ≠ 4) :
    WidensTo body m ↔ body.length = 6 ∧ (∀ c ∈ body, isDigitChar c = true) ∧ decimalValue body = m := by
  simp [WidensTo, widenBody_of_length_ne_four h]

/-- 30_encoding R80, R84, R85: the bodies that become six digits, and the magnitude they spell. -/
theorem widensTo_iff {body : Text} {m : Nat} :
    WidensTo body m ↔
      (∀ c ∈ body, isDigitChar c = true) ∧
      ((body.length = 6 ∧ m = decimalValue body) ∨
        (body.length = 4 ∧
          m = if decimalValue body / 100 ∈ knownCodes then 1000 * (decimalValue body / 100) + decimalValue body % 100
            else decimalValue body)) := by
  by_cases hlen : body.length = 4
  · obtain ⟨b0, b1, b2, b3, rfl⟩ := List.length_eq_four.1 hlen
    rw [widensTo_four]
    refine and_congr_right fun hd => ?_
    rw [decimalValue_upconvert hd]
    simp [eq_comm]
  · rw [widensTo_of_length_ne_four hlen, and_left_comm]
    simp only [hlen, false_and, or_false, eq_comm (a := m)]

/-- 30_encoding R80: the parser's verdict, from the sign and the body of the trimmed text. -/
theorem parseWord_eq_some_iff {text : Text} {w : Word} :
    parseWord text = some w ↔
      (splitSign (trimText text)).1 = w.sign ∧ WidensTo (splitSign (trimText text)).2 w.mag.val := by
  obtain ⟨sg, m⟩ := w
  simp only [parseWord, WidensTo]
  cases widenBody (splitSign (trimText text)).2 with
  | none => simp
  | some wide =>
    have hvalue : wide.length = 6 → (∀ c ∈ wide, isDigitChar c = true) →
        (Fin.ofNat 1000000 (decimalValue wide) = m ↔ decimalValue wide = m.val) := by
      intro hlen hd
      have hlt : decimalValue wide < 1000000 := by simpa [hlen] using decimalValue_lt hd
      rw [← Fin.val_inj, Fin.val_ofNat, Nat.mod_eq_of_lt hlt]
    simp only [Option.ite_none_right_eq_some, Bool.and_eq_true, decide_eq_true_iff, List.all_eq_true, Option.some.injEq,
      Word.mk.injEq, exists_eq_left']
    tauto

/-- Settles O54: the parser's sign and body are the ones the text is spelled with. -/
theorem parserAcceptsExactly : Obligations.ParserAcceptsExactly := by
  intro text w
  rw [parseWord_eq_some_iff, widensTo_iff]
  constructor
  · rintro ⟨hsign, hbody⟩
    have hspells := splitSign_spells (trimText text)
    rw [hsign] at hspells
    exact ⟨_, hspells, hbody⟩
  · rintro ⟨body, hsigned, hbody⟩
    have hsplit : splitSign (trimText text) = (w.sign, body) := by
      rcases hsigned with h | ⟨h, hplus⟩
      · rw [h, splitSign_signed]
      · rw [h, splitSign_digits hbody.1, hplus]
    rw [hsplit]
    exact ⟨rfl, hbody⟩

end Sys2Proof.Machine

/-! The canonical form and the integer constructor (30_encoding R78, R83). -/

namespace Sys2Proof.Machine

/-- What a sign before digits parses to: the text is not trimmed and the sign is taken off. -/
theorem parseWord_signed {sg : Sign} {body : Text} {w : Word} (h : ∀ c ∈ body, isDigitChar c = true) :
    parseWord (signChar sg :: body) = some w ↔ sg = w.sign ∧ WidensTo body w.mag.val := by
  rw [parseWord_eq_some_iff, trimText_signed sg h, splitSign_signed]

/-- A sign and six digits parse to the Word of this sign and of the number that they spell. -/
theorem parseWord_six {w : Word} {digits : Text} (hlen : digits.length = 6) (h : ∀ c ∈ digits, isDigitChar c = true)
    (hvalue : decimalValue digits = w.mag.val) : parseWord (signChar w.sign :: digits) = some w :=
  (parseWord_signed h).2 ⟨rfl, widensTo_iff.2 ⟨h, .inl ⟨hlen, hvalue.symm⟩⟩⟩

/-- 30_encoding R78: the six digits of a Word's magnitude. -/
def magDigits (w : Word) : Text := threeDigits w.opfield ++ threeDigits w.operand

theorem rawForm_eq (w : Word) : rawForm w = signChar w.sign :: magDigits w := rfl

theorem length_magDigits (w : Word) : (magDigits w).length = 6 := rfl

theorem isDigitChar_of_mem_magDigits (w : Word) : ∀ c ∈ magDigits w, isDigitChar c = true :=
  fun _ hc => (List.mem_append.1 hc).elim isDigitChar_of_mem_threeDigits isDigitChar_of_mem_threeDigits

theorem decimalValue_magDigits (w : Word) : decimalValue (magDigits w) = w.mag.val := by
  have hoperand : w.operand ≤ 999 := by unfold Word.operand; omega
  rw [magDigits, decimalValue_append, decimalValue_threeDigits w.opfield_le, decimalValue_threeDigits hoperand,
    length_threeDigits, w.mag_eq_fields]
  norm_num

/-- 30_encoding R78: the canonical form parses to its Word. -/
@[simp] theorem parseWord_rawForm (w : Word) : parseWord (rawForm w) = some w :=
  parseWord_six (length_magDigits w) (isDigitChar_of_mem_magDigits w) (decimalValue_magDigits w)

/-- 30_encoding R78: six digits are the digits of a Word whose magnitude they spell. -/
theorem magDigits_eq {w : Word} {digits : Text} (hlen : digits.length = 6) (h : ∀ c ∈ digits, isDigitChar c = true)
    (hvalue : decimalValue digits = w.mag.val) : magDigits w = digits := by
  have hhigh : (digits.take 3).length = 3 := by simp [hlen]
  have hlow : (digits.drop 3).length = 3 := by simp [hlen]
  have hdhigh : ∀ c ∈ digits.take 3, isDigitChar c = true := fun c hc => h c (List.mem_of_mem_take hc)
  have hdlow : ∀ c ∈ digits.drop 3, isDigitChar c = true := fun c hc => h c (List.mem_of_mem_drop hc)
  have hlt := decimalValue_lt hdlow
  have hsum : w.mag.val = 1000 * decimalValue (digits.take 3) + decimalValue (digits.drop 3) := by
    rw [← hvalue, ← List.take_append_drop 3 digits, decimalValue_append, hlow]
    simp
  rw [hlow] at hlt
  have hopfield : w.opfield = decimalValue (digits.take 3) := by unfold Word.opfield; omega
  have hoperand : w.operand = decimalValue (digits.drop 3) := by unfold Word.operand; omega
  rw [magDigits, hopfield, hoperand, threeDigits_decimalValue hhigh hdhigh, threeDigits_decimalValue hlow hdlow,
    List.take_append_drop]

/-- Settles O53: the digits of the magnitude spell it, and six digits are the digits of the magnitude they spell. -/
theorem canonicalTextRoundTrips : Obligations.CanonicalTextRoundTrips := by
  refine ⟨fun w => ⟨magDigits w, rawForm_eq w, length_magDigits w, isDigitChar_of_mem_magDigits w,
    decimalValue_magDigits w, parseWord_rawForm w⟩, fun sg digits hlen hd => ?_⟩
  have hlt : decimalValue digits < 1000000 := by simpa [hlen] using decimalValue_lt hd
  obtain ⟨w, rfl, hmag⟩ : ∃ w : Word, w.sign = sg ∧ decimalValue digits = w.mag.val := ⟨⟨sg, _, hlt⟩, rfl, rfl⟩
  exact ⟨w, parseWord_six hlen hd hmag, by rw [rawForm_eq, magDigits_eq hlen hd hmag]⟩

theorem wordOfText_of_some {text : Text} {w : Word} (h : parseWord text = some w) : wordOfText text = .ok w := by
  rw [wordOfText, h]

theorem wordOfText_of_none {text : Text} (h : parseWord text = none) :
    wordOfText text = .error (.malformedWord text) := by
  rw [wordOfText, h]

theorem fromInteger_of_fits {r : Int} (h : r.natAbs ≤ 999999) : fromInteger r = .ok (fromInt r) := if_pos h

theorem fromInteger_of_long {r : Int} (h : 999999 < r.natAbs) :
    fromInteger r = .error (.malformedWord (integerText r)) := if_neg (by omega)

theorem integerText_of_fits {r : Int} (h : r.natAbs ≤ 999999) : integerText r = rawForm (fromInt r) := if_pos h

theorem integerText_of_long {r : Int} (h : 999999 < r.natAbs) :
    integerText r = signChar (signOf r) :: Nat.toDigits 10 r.natAbs := if_neg (by omega)

theorem isDigitChar_of_mem_toDigits {n : Nat} {c : Char} (h : c ∈ Nat.toDigits 10 n) : isDigitChar c = true :=
  isDigitChar_iff.2 (Char.isDigit_iff_toNat.1 (Nat.isDigit_of_mem_toDigits (by decide) (by decide) h))

/-- 30_encoding R83 (decision D29): more than six digits are no Word's text. -/
theorem parseWord_integerText_of_long {r : Int} (h : 999999 < r.natAbs) : parseWord (integerText r) = none := by
  have hlen : ¬ (Nat.toDigits 10 r.natAbs).length ≤ 6 := by
    rw [Nat.length_toDigits_le_iff (by decide) (by decide)]; omega
  rw [integerText_of_long h, Option.eq_none_iff_forall_ne_some]
  intro w hw
  obtain ⟨-, hbody⟩ := (parseWord_signed fun _ => isDigitChar_of_mem_toDigits).1 hw
  obtain ⟨-, ⟨hsix, -⟩ | ⟨hfour, -⟩⟩ := widensTo_iff.1 hbody <;> omega

/-- Settles O55: an integer that fits has a Word's canonical text, a longer one has a text that does not parse. -/
theorem integersGoThroughTheirText : Obligations.IntegersGoThroughTheirText := by
  intro r
  refine ⟨fun h => ⟨fromInt r, fromInteger_of_fits h, wordVal_fromInt h⟩, fromInteger_of_long, ?_⟩
  rcases Nat.lt_or_ge 999999 r.natAbs with h | h
  · rw [fromInteger_of_long h, wordOfText_of_none (parseWord_integerText_of_long h)]
  · rw [fromInteger_of_fits h, integerText_of_fits h, wordOfText_of_some (parseWord_rawForm _)]

end Sys2Proof.Machine

/-! Word arithmetic (40_word_arithmetic.md): the sign and the digits `Trunc` keeps, when it keeps the value, comparison by
value, and the completion of the three instructions that may overflow. -/

namespace Sys2Proof.Machine

open Sys2Proof.Claims

/-! The value of a Word (40_word_arithmetic R101). -/

theorem wordVal_of_plus {w : Word} (h : w.sign = .plus) : wordVal w = (w.mag.val : Int) := by rw [wordVal, h]

theorem wordVal_of_minus {w : Word} (h : w.sign = .minus) : wordVal w = -(w.mag.val : Int) := by rw [wordVal, h]

theorem wordVal_neg_iff (w : Word) : wordVal w < 0 ↔ w.sign = .minus ∧ w.mag.val ≠ 0 := by
  cases hs : w.sign with
  | plus => rw [wordVal_of_plus hs]; simp
  | minus => rw [wordVal_of_minus hs]; simp; omega

theorem eq_negativeZero_iff {w : Word} : w = ⟨.minus, 0⟩ ↔ w.sign = .minus ∧ w.mag.val = 0 := by
  obtain ⟨sg, mag⟩ := w
  rw [Word.mk.injEq, Fin.ext_iff, Fin.val_zero]

/-! `Trunc` (40_word_arithmetic R103). -/

theorem signOf_eq_minus_iff {r : Int} : signOf r = .minus ↔ r < 0 := by simp [signOf]

@[simp] theorem trunc_sign (r : Int) : (trunc r).sign = signOf r := by
  unfold trunc; split <;> rfl

/-- Below 1000000 the absolute value is its own last six digits, so one formula serves both branches of `Trunc`. -/
@[simp] theorem trunc_mag (r : Int) : (trunc r).mag.val = r.natAbs % 1000000 := by
  rcases Nat.lt_or_ge 999999 r.natAbs with h | h
  · rw [trunc_of_overflow h, Fin.val_ofNat, Nat.mod_mod]
  · rw [trunc_of_fits h, fromInt_mag h, Nat.mod_eq_of_lt (Nat.lt_succ_of_le h)]

theorem wordVal_trunc_eq_iff {r : Int} : wordVal (trunc r) = r ↔ r.natAbs ≤ 999999 := by
  constructor
  · intro h; rw [← h]; exact wordVal_bound _
  · intro h; rw [trunc_of_fits h, wordVal_fromInt h]

/-- 40_word_arithmetic R105, R112 (5): a negative result has a digit other than zero, so it must lose one to be
`-000000`. -/
theorem trunc_eq_negativeZero_iff {r : Int} : trunc r = ⟨.minus, 0⟩ ↔ OverflowsToNegativeZero r := by
  rw [eq_negativeZero_iff, trunc_sign, trunc_mag, signOf_eq_minus_iff]
  omega

/-- 40_word_arithmetic R111: the floor quotient is no larger than the dividend, so it fits. -/
theorem natAbs_fdiv_wordVal_le (a : Word) (d : Int) : (Int.fdiv (wordVal a) d).natAbs ≤ 999999 :=
  (Int.natAbs_fdiv_le_natAbs _ _).trans (wordVal_bound a)

theorem aluDiv_of_ne_zero (a : Word) {b : Word} (h : wordVal b ≠ 0) :
    aluDiv a b = .ok (trunc (Int.fdiv (wordVal a) (wordVal b))) := if_neg h

theorem aluDiv_of_zero (a : Word) {b : Word} (h : wordVal b = 0) : aluDiv a b = .error .divisionByZero := if_pos h

theorem aluDiv_ne_negativeZero (a b : Word) : aluDiv a b ≠ .ok ⟨.minus, 0⟩ := by
  by_cases hb : wordVal b = 0
  · rw [aluDiv_of_zero a hb]; exact nofun
  · rw [aluDiv_of_ne_zero a hb]
    intro h
    obtain ⟨-, hover, -⟩ := trunc_eq_negativeZero_iff.mp (Except.ok.inj h)
    exact absurd (natAbs_fdiv_wordVal_le a _) (Nat.not_le.mpr hover)

/-- Settles O30: the claim about `Trunc`, at the exact result of each operation; a floor quotient never overflows. -/
theorem negativeZeroOnlyFromOverflow : Obligations.NegativeZeroOnlyFromOverflow :=
  ⟨fun _ => trunc_eq_negativeZero_iff, fun a b =>
    ⟨trunc_eq_negativeZero_iff, trunc_eq_negativeZero_iff, trunc_eq_negativeZero_iff, aluDiv_ne_negativeZero a b⟩⟩

/-! Overflow of a sum and of a difference (40_word_arithmetic R107, R108). -/

/-- The magnitudes add when the signs agree; otherwise they cancel and the sum is no larger than one of them. -/
theorem natAbs_wordVal_add_le_iff (a b : Word) :
    (wordVal a + wordVal b).natAbs ≤ 999999 ↔ ¬(a.sign = b.sign ∧ 1000000 ≤ a.mag.val + b.mag.val) := by
  obtain ⟨sa, ma, ha⟩ := a
  obtain ⟨sb, mb, hb⟩ := b
  cases sa <;> cases sb <;>
    simp only [wordVal, reduceCtorEq, true_and, false_and, not_false_eq_true, iff_true] <;> omega

/-- The Word with the other sign. -/
def wordNeg (w : Word) : Word := ⟨if w.sign = .plus then .minus else .plus, w.mag⟩

@[simp] theorem wordNeg_mag (w : Word) : (wordNeg w).mag = w.mag := rfl

theorem eq_sign_wordNeg_iff {sg : Sign} {w : Word} : sg = (wordNeg w).sign ↔ sg ≠ w.sign := by
  obtain ⟨sw, mag⟩ := w
  cases sg <;> cases sw <;> simp [wordNeg]

theorem wordVal_wordNeg (w : Word) : wordVal (wordNeg w) = -wordVal w := by
  obtain ⟨sw, mag⟩ := w
  cases sw with
  | plus => rfl
  | minus => exact (neg_neg _).symm

theorem wordVal_aluAdd_eq_iff (a b : Word) :
    wordVal (aluAdd a b) = wordVal a + wordVal b ↔ ¬(a.sign = b.sign ∧ 1000000 ≤ a.mag.val + b.mag.val) :=
  wordVal_trunc_eq_iff.trans (natAbs_wordVal_add_le_iff a b)

/-- A difference is the sum with the other sign, so it overflows where that sum does. -/
theorem wordVal_aluSub_eq_iff (a b : Word) :
    wordVal (aluSub a b) = wordVal a - wordVal b ↔ ¬(a.sign ≠ b.sign ∧ 1000000 ≤ a.mag.val + b.mag.val) := by
  rw [aluSub, Int.sub_eq_add_neg, ← wordVal_wordNeg, ← eq_sign_wordNeg_iff, ← wordNeg_mag b]
  exact wordVal_aluAdd_eq_iff a (wordNeg b)

/-- Settles O31: the value survives exactly when the exact result fits. -/
theorem overflowConditionOfAddAndSub : Obligations.OverflowConditionOfAddAndSub := fun a b =>
  ⟨wordVal_aluAdd_eq_iff a b, wordVal_aluSub_eq_iff a b⟩

/-! Comparison (40_word_arithmetic R110). -/

theorem wordEq_iff {a b : Word} : wordEq a b = true ↔ wordVal a = wordVal b := beq_iff_eq

theorem wordLt_iff {a b : Word} : wordLt a b = true ↔ wordVal a < wordVal b := decide_eq_true_iff

theorem wordLe_iff {a b : Word} : wordLe a b = true ↔ wordVal a ≤ wordVal b := decide_eq_true_iff

theorem isNeg_iff {w : Word} : isNeg w = true ↔ wordVal w < 0 := decide_eq_true_iff

theorem isZero_iff {w : Word} : isZero w = true ↔ wordVal w = 0 := decide_eq_true_iff

/-- Settles O32: each test decides a relation of values, and the sign and the magnitude give the value. -/
theorem comparisonIsByValue : Obligations.ComparisonIsByValue := fun a _ =>
  ⟨wordEq_iff, wordLt_iff, wordLe_iff, isNeg_iff, isNeg_iff.trans (wordVal_neg_iff a), isZero_iff,
    isZero_iff.trans (wordVal_eq_zero_iff a), by decide, by decide⟩

/-! The instructions that write the accumulator (44_arithmetic.md, 41_sequencer R124). -/

theorem State.jump_halted_iff (s : State) (a : Nat) :
    (s.jump a).halted = true ↔ s.halted = true ∨ a + 1 = s.capacity := by simp

theorem State.withOperand_accResult_completes (s : State) {a : Nat} (f : Word → Word) (ha : a < s.capacity)
    (hp : s.pc + 1 < s.capacity) :
    s.withOperand a (fun v => s.accResult (.ok (f v))) = (s.setAcc (f (s.mem.read a))).jump (s.pc + 1) := by
  rw [s.withOperand_inRange _ ha, s.accResult_inRange _ hp]

theorem exec_add_completes (s : State) {a : Nat} (ha : a < s.capacity) (hp : s.pc + 1 < s.capacity) :
    exec (.add a) s = .next ((s.setAcc (aluAdd s.acc (s.mem.read a))).jump (s.pc + 1)) :=
  congrArg Host.Outcome.next (s.withOperand_accResult_completes _ ha hp)

theorem exec_subtract_completes (s : State) {a : Nat} (ha : a < s.capacity) (hp : s.pc + 1 < s.capacity) :
    exec (.subtract a) s = .next ((s.setAcc (aluSub s.acc (s.mem.read a))).jump (s.pc + 1)) :=
  congrArg Host.Outcome.next (s.withOperand_accResult_completes _ ha hp)

theorem exec_multiply_completes (s : State) {a : Nat} (ha : a < s.capacity) (hp : s.pc + 1 < s.capacity) :
    exec (.multiply a) s = .next ((s.setAcc (aluMul s.acc (s.mem.read a))).jump (s.pc + 1)) :=
  congrArg Host.Outcome.next (s.withOperand_accResult_completes _ ha hp)

/-- An arithmetic instruction with its address and its advance in range writes some Word and advances, whatever the
operands. -/
theorem exec_arithmetic_completes (s : State) {a : Nat} {i : Instr} (hi : i ∈ [Instr.add a, .subtract a, .multiply a])
    (ha : a < s.capacity) (hp : s.pc + 1 < s.capacity) :
    ∃ w : Word, exec i s = .next ((s.setAcc w).jump (s.pc + 1)) := by
  simp only [List.mem_cons, List.not_mem_nil, or_false] at hi
  rcases hi with rfl | rfl | rfl
  · exact ⟨_, exec_add_completes s ha hp⟩
  · exact ⟨_, exec_subtract_completes s ha hp⟩
  · exact ⟨_, exec_multiply_completes s ha hp⟩

/-- Settles O29: the state is an accumulator write and an accepted `SetPC`, and these touch nothing else. -/
theorem overflowIsSilent : Obligations.OverflowIsSilent := by
  intro s a i hi ha hp
  obtain ⟨w, hw⟩ := exec_arithmetic_completes s hi ha hp
  exact ⟨_, hw, rfl, rfl, State.jump_halted_iff _ _⟩

end Sys2Proof.Machine

/-! The sequencer (41_sequencer.md): what a step does at its guards, `SetPC` and the three events that halt the machine,
the end of a run at its start, and the input wait of READ. -/

namespace Sys2Proof.Machine

open Sys2Proof.Claims

/-! The guards of a step (41_sequencer R122). -/

/-- Settles O11: past the guards the fetch answers the Word at `pc`. -/
theorem stepRunsDecodedInstruction : Obligations.StepRunsDecodedInstruction := by
  intro s i hf hh hp hi
  rw [step_of_running hf hh hp, hi]

/-- 60_exceptions R189 (decision D10): the first guard is the latch. -/
theorem step_of_faulted {s : State} (h : s.fault ≠ none) : step s = .next s :=
  if_pos (Option.isSome_iff_ne_none.mpr h)

theorem step_of_finished {s : State} (hf : s.fault = none) (h : s.finished = true) : step s = .next s.setHalted := by
  simp [step, hf, h]

/-- 41_sequencer R127: there is no transition out of Halted, with a fault latched or without. -/
theorem step_of_halted {s : State} (h : s.halted = true) : step s = .next s := by
  by_cases hf : s.fault = none
  · rw [step_of_finished hf (by simp [State.finished, h]), State.setHalted_of_halted h]
  · exact step_of_faulted hf

/-- Settles O12: each guard by its lemma; a `pc` out of range is the second way to be finished. -/
theorem stoppedMachineDoesNothing : Obligations.StoppedMachineDoesNothing := by
  refine fun s => ⟨step_of_faulted, fun _ => step_of_halted, fun hf _ hp => step_of_finished hf ?_⟩
  have hout : s.inRange s.pc = false := State.inRange_eq_false (.inr (Int.ofNat_le.mpr hp))
  simp [State.finished, hout]

/-! `SetPC` (41_sequencer R120). -/

theorem State.setPc_out_of_range (s : State) {v : Int} (h : v < 0 ∨ (s.capacity : Int) ≤ v) :
    s.setPc v = .error (.addressOutOfRange v) := if_pos h

/-- Past its guards an instruction moves `pc` by an accepted `SetPC` only: the input wait and a fault leave it. -/
theorem Does.pc_changed {i : Instr} {s t : State} (hd : Does i s t) (hpc : t.pc ≠ s.pc) :
    t.pc < s.capacity ∧ (t.pc + 1 = s.capacity → t.halted = true) := by
  rcases hd with ⟨-, -, rfl⟩ | ⟨u, b, hu, hb, rfl⟩ | ⟨u, e, hu, -, rfl⟩
  · exact absurd rfl hpc
  · exact ⟨hb, fun hend => (u.jump_halted_iff b).mpr (.inr (hend.trans hu.capacity.symm))⟩
  · exact absurd hu.pc hpc

/-- Settles O14: an accepted `SetPC` is the update `jump`, and a step that changes `pc` has executed an instruction on a
machine that was not halted. -/
theorem setPcIsChecked : Obligations.SetPcIsChecked := by
  refine ⟨fun s v => ⟨s.setPc_out_of_range, fun h0 hv => ?accepted⟩, fun s t hstep hpc => ?step⟩
  case accepted =>
    obtain ⟨a, rfl⟩ := Int.eq_ofNat_of_zero_le h0
    refine ⟨s.jump a, s.setPc_inRange (Int.ofNat_lt.mp hv), rfl, fun hend => ?_, fun hend => ?_, rfl, rfl, rfl, rfl, rfl,
      rfl, rfl, rfl, rfl⟩
    · exact (s.jump_halted_iff a).mpr (.inr (by omega))
    · have hsentinel : a + 1 ≠ s.capacity := by omega
      simp [hsentinel]
  case step =>
    rcases step_does s t hstep with ⟨-, rfl⟩ | ⟨-, -, rfl⟩ | ⟨-, hh, -, hexec⟩
    · exact absurd rfl hpc
    · exact absurd rfl hpc
    · obtain ⟨hrange, hend⟩ := (exec_does _ s t hexec).pc_changed hpc
      refine ⟨s.jump t.pc, s.setPc_inRange hrange, rfl, fun hu => hend ?_⟩
      exact ((s.jump_halted_iff t.pc).mp hu).resolve_left (by simp [hh])

/-! The transitions to Halted (41_sequencer R127). -/

/-- 45_control R173 (decision D8): HALT in front of the sentinel halts and advances. -/
theorem exec_halt_completes (s : State) (a : Nat) (hp : s.pc + 1 < s.capacity) :
    exec (.halt a) s = .next (s.setHalted.jump (s.pc + 1)) :=
  congrArg Host.Outcome.next (s.setHalted.advance_inRange hp)

/-- What an instruction has done to `halted` before its last act, on a machine that was not halted. -/
theorem Worked.halted_iff {i : Instr} {s u : State} (hu : Worked i s u) (hh : s.halted = false) :
    u.halted = true ↔ ∃ a, i = .halt a := by
  rcases hu.halted with ⟨hsame, hnot⟩ | ⟨htrue, hhalt⟩
  · simp [hsame, hh, hnot]
  · exact iff_of_true htrue hhalt

/-- In front of the sentinel an instruction halts the machine by being HALT or by reaching the sentinel. -/
theorem exec_halted_iff {i : Instr} {s t : State} (hh : s.halted = false) (hp : s.pc + 1 < s.capacity)
    (h : exec i s = .next t) : t.halted = true ↔ (∃ a, i = .halt a) ∨ t.pc + 1 = s.capacity := by
  rcases exec_does i s t h with ⟨⟨a, rfl⟩, -, rfl⟩ | ⟨u, b, hu, -, rfl⟩ | ⟨u, e, hu, -, rfl⟩
  · simp [hh, hp.ne]
  · rw [State.jump_halted_iff, hu.halted_iff hh, hu.capacity, State.jump_pc]
  · rw [State.raise_halted, hu.halted_iff hh, State.raise_pc, hu.pc, or_iff_left hp.ne]

/-- 41_sequencer R127: an instruction that latches a fault is no halt: in front of the sentinel HALT completes. -/
theorem exec_fault_not_halted {i : Instr} {s t : State} (hf : s.fault = none) (hh : s.halted = false)
    (hp : s.pc + 1 < s.capacity) (h : exec i s = .next t) (ht : t.fault ≠ none) : t.halted = false := by
  rcases exec_does i s t h with ⟨-, -, rfl⟩ | ⟨u, b, hu, -, rfl⟩ | ⟨u, e, hu, -, rfl⟩
  · exact hh
  · exact absurd (hu.fault.trans hf) ht
  · rw [State.raise_halted, Bool.eq_false_iff, Ne, hu.halted_iff hh]
    rintro ⟨a, rfl⟩
    have heq := Host.Outcome.next.inj ((exec_halt_completes s a hp).symm.trans h)
    exact ht (heq ▸ hf)

/-- Settles O15: a machine short of the sentinel halts at the range guard or by its instruction. -/
theorem haltedByThreeEventsOnly : Obligations.HaltedByThreeEventsOnly := by
  intro s t hf hend hstep
  refine ⟨fun hh => ?_, fun hh => Host.Outcome.next.inj (hstep.symm.trans (step_of_halted hh))⟩
  rcases step_does s t hstep with ⟨hfault, -⟩ | ⟨-, hd, rfl⟩ | ⟨-, -, hp, hexec⟩
  · simp [hf] at hfault
  · have hout : s.capacity ≤ s.pc := by simpa [State.finished, hh, State.inRange] using hd
    exact ⟨iff_of_true rfl (.inr (.inr hout)), fun h => absurd hf h⟩
  · have hadvance : s.pc + 1 < s.capacity := by
      have hsentinel : s.pc + 1 ≠ s.capacity := fun h => by simp [hend h] at hh
      omega
    refine ⟨?_, exec_fault_not_halted hf hh hadvance hexec⟩
    rw [exec_halted_iff hh hadvance hexec, and_iff_right hp, or_iff_left (Nat.not_le.mpr hp)]

/-- Settles O16: the invariant after the step says that the machine is halted, and a halted machine stays as it is. -/
theorem sentinelIsNeverExecuted : Obligations.SentinelIsNeverExecuted := by
  intro s t hinv hstep hpc
  obtain ⟨⟨hcap, -⟩, -, hend, -⟩ := State.inv_iff.mp (step_inv hinv hstep)
  have hcapacity := step_capacity hstep
  have hhalted : t.halted = true := hend (by omega)
  exact ⟨hhalted, step_of_halted hhalted⟩

/-! The start of a run (41_sequencer R128, R129). -/

theorem hostRun_of_faulted {s : State} (h : s.fault ≠ none) (start : Int) (trace : Option Int) (budget : Nat) :
    hostRun s start trace budget = ⟨.ended, s, []⟩ := if_pos (Option.isSome_iff_ne_none.mpr h)

theorem hostRun_out_of_range {s : State} {start : Int} (hf : s.fault = none)
    (h : start < 0 ∨ (s.capacity : Int) ≤ start) (trace : Option Int) (budget : Nat) :
    hostRun s start trace budget = ⟨.ended, s.raise (.addressOutOfRange start), []⟩ := by
  simp [hostRun, hf, s.setPc_out_of_range h]

theorem hostRun_inRange {s : State} {a : Nat} (hf : s.fault = none) (h : a < s.capacity) (trace : Option Int)
    (budget : Nat) : hostRun s a trace budget = runLoop trace budget (s.jump a) := by
  simp [hostRun, hf, s.setPc_inRange h]

theorem runLoop_of_halted {s : State} (h : s.halted = true) (trace : Option Int) (budget : Nat) :
    runLoop trace budget s = ⟨.ended, s, []⟩ := by
  cases budget <;> simp [runLoop, h]

theorem State.jump_of_halts {s : State} {a : Nat} (h : s.halted = true ∨ a + 1 = s.capacity) :
    s.jump a = { s with pc := a, halted := true } := by
  rw [← (s.jump_halted_iff a).mpr h, State.jump]

/-- Settles O18: the latch and `SetPC` answer before the loop, and the loop executes nothing on a machine that the `SetPC`
leaves halted. -/
theorem runCornerCases : Obligations.RunCornerCases := by
  intro s start trace budget
  refine ⟨fun hf => ?faulted, fun hf hout => ?outOfRange, fun hf h0 hstart hstops => ?halted⟩
  case faulted => rw [hostRun_of_faulted hf]
  case outOfRange => rw [hostRun_out_of_range hf hout]; rfl
  case halted =>
    obtain ⟨a, rfl⟩ := Int.eq_ofNat_of_zero_le h0
    have hhalts : s.halted = true ∨ a + 1 = s.capacity := hstops.imp_right fun h => by omega
    have hhalted : (s.jump a).halted = true := (s.jump_halted_iff a).mpr hhalts
    rw [hostRun_inRange hf (Int.ofNat_lt.mp hstart), runLoop_of_halted hhalted, Int.toNat_natCast]
    exact State.jump_of_halts hhalts

/-! The input wait (60_exceptions R196, 42_io R140). -/

/-- 42_io R140: lines none of which parses are all consumed and all rejected. -/
theorem scanInput_allMalformed {input : List Text} (h : AllMalformed input) : scanInput input = ⟨input, none, []⟩ := by
  induction input with
  | nil => rfl
  | cons line rest ih =>
    obtain ⟨hline, hrest⟩ := List.forall_mem_cons.mp h
    rw [scanInput_malformed rest hline, ih hrest]

theorem exec_read_blocks (a : Nat) {s : State} (h : AllMalformed s.input) :
    exec (.read a) s = .next (s.consumeInput ⟨s.input, none, []⟩) := by
  simp only [exec, execRead, scanInput_allMalformed h]

theorem exec_read_completes {s : State} {a : Nat} {w : Word} (h : (scanInput s.input).word = some w)
    (ha : a < s.capacity) (hp : s.pc + 1 < s.capacity) :
    exec (.read a) s =
      .next ((((s.consumeInput (scanInput s.input)).setWaiting false).putWord a w).jump (s.pc + 1)) := by
  simp only [exec, execRead, h]
  exact congrArg Host.Outcome.next (State.storeResult_completes _ w ha hp)

/-- 60_exceptions R196: a machine that stands on a READ with no line that parses enters, or stays in, the input wait. -/
theorem step_of_blocked_read {s : State} {a : Nat} (hf : s.fault = none) (hh : s.halted = false)
    (hp : s.pc < s.capacity) (hread : decode (s.mem.read s.pc) = .read a) (hin : AllMalformed s.input) :
    step s = .next (s.consumeInput ⟨s.input, none, []⟩) := by
  rw [step_of_running hf hh hp, hread, exec_read_blocks a hin]

/-- With no line left there is none to consume and none to log: a READ that goes on, or starts afresh, sets the flag. -/
theorem step_of_read_without_input {s : State} {a : Nat} (hf : s.fault = none) (hh : s.halted = false)
    (hp : s.pc < s.capacity) (hread : decode (s.mem.read s.pc) = .read a) (hin : s.input = []) :
    step s = .next (s.setWaiting true) := by
  rw [step_of_blocked_read hf hh hp hread (by simp [AllMalformed, hin])]
  simp [State.consumeInput, State.setWaiting, hin]

/-- An appended valid line is the only one left, so READ takes it and rejects nothing. -/
theorem step_append_completes_read {s : State} {a : Nat} {line : Text} {w : Word} (hf : s.fault = none)
    (hh : s.halted = false) (hread : decode (s.mem.read s.pc) = .read a) (ha : a < s.capacity)
    (hp : s.pc + 1 < s.capacity) (hin : s.input = []) (hline : parseWord line = some w) :
    step (hostAppend s line) = .next (((s.setWaiting false).putWord a w).jump (s.pc + 1)) := by
  have hscan : scanInput (hostAppend s line).input = ⟨[], some w, []⟩ := by
    rw [hostAppend_input, hin]; exact scanInput_valid [] hline
  have hstep : step (hostAppend s line) = exec (.read a) (hostAppend s line) := by
    rw [← hread]; exact step_of_running (s := hostAppend s line) hf hh (Nat.lt_of_succ_lt hp)
  have hstate : ((hostAppend s line).consumeInput ⟨[], some w, []⟩).setWaiting false = s.setWaiting false := by
    simp [State.consumeInput, State.setWaiting, hostAppend, hin]
  rw [hstep, exec_read_completes (s := hostAppend s line) (by rw [hscan]) ha hp, hscan, hstate, hostAppend_pc]

/-- Settles O41: the blocked READ consumes its malformed lines once; after that the input is empty, so another step or a
step after `Stop` only sets `waiting`, and an appended line is the first that READ takes. -/
theorem inputWaitEndsOnlyByHost : Obligations.InputWaitEndsOnlyByHost := by
  intro s a line w hf hh hread ha hp hin hline
  have hpc : s.pc < s.capacity := Nat.lt_of_succ_lt hp
  let t := s.consumeInput ⟨s.input, none, []⟩
  exact ⟨t, step_of_blocked_read hf hh hpc hread hin, rfl, rfl,
    step_of_read_without_input (s := t) hf hh hpc hread rfl,
    ⟨_, step_append_completes_read (s := t) hf hh hread ha hp rfl hline, Memory.read_write_same _ a w, rfl, rfl, rfl, rfl⟩,
    rfl, rfl, step_of_read_without_input (s := hostStop t) hf hh hpc hread rfl⟩

end Sys2Proof.Machine

/-! READ and WRITE (42_io.md): the lines READ takes, and what the two do when they complete, wait or fault. -/

namespace Sys2Proof.Machine

open Sys2Proof.Claims

/-- 41_sequencer R124: an accepted `SetPC(pc + 1)` is the advance, after work that left `halted` and the capacity alone. -/
theorem jump_advanced {s u : State} (hh : u.halted = s.halted) (hc : u.capacity = s.capacity)
    (hp : s.pc + 1 < s.capacity) : Advanced s (u.jump (s.pc + 1)) := by
  have hsentinel : s.pc + 1 + 1 = s.capacity ↔ s.pc + 1 = s.capacity - 1 := by omega
  refine ⟨rfl, ?_⟩
  rw [State.jump_halted_iff, hh, hc, hsentinel]

/-! WRITE (42_io R141). -/

theorem exec_write_completes (s : State) {a : Nat} (ha : a < s.capacity) (hp : s.pc + 1 < s.capacity) :
    exec (.write a) s = .next ((s.outEmit (s.mem.read a)).jump (s.pc + 1)) := by
  refine congrArg Host.Outcome.next ?_
  rw [s.withOperand_inRange _ ha]
  exact (s.outEmit _).advance_at rfl rfl hp

/-- Settles O24: an emission and an accepted `SetPC`, and these touch nothing else. -/
theorem writeEmitsCell : Obligations.WriteEmitsCell := fun s _ ha hp =>
  ⟨_, exec_write_completes s ha hp, rfl, rfl, jump_advanced rfl rfl hp, ⟨fun _ => rfl, fun _ => .rfl⟩, rfl, rfl,
    rfl, rfl, rfl⟩

/-- The last act of WRITE comes after the emission, or is the fault that prevents it. -/
theorem exec_write_endFrame {s t : State} {a : Nat} (h : exec (.write a) s = .next t) :
    EndFrame s t ∨ EndFrame (s.outEmit (s.mem.read a)) t := by
  obtain rfl : s.withOperand a (fun v => (s.outEmit v).advance) = t := Host.Outcome.next.inj h
  rcases Nat.lt_or_ge a s.capacity with ha | ha
  · rw [s.withOperand_inRange _ ha]; exact .inr (advance_endFrame _)
  · rw [s.withOperand_raises _ ha]; exact .inl (raise_endFrame s _)

theorem EndFrame.sameMemory {s t : State} (h : EndFrame s t) : SameMemory s t :=
  ⟨fun b => by rw [h.mem], fun b => by rw [h.written]⟩

/-- Settles O50: the last act of WRITE touches no stream, so `out` is as the emission left it, or as it was before. -/
theorem writeFrame : Obligations.WriteFrame := by
  intro s t a h
  rcases exec_write_endFrame h with hend | hend
  · obtain ⟨hin, hout, herr⟩ := hend.streams
    exact ⟨hend.acc, hend.sameMemory, hin, herr, .inl hout, hend.halted, hend.status⟩
  · obtain ⟨hin, hout, herr⟩ := hend.streams
    exact ⟨hend.acc, hend.sameMemory, hin, herr, .inr hout, hend.halted, hend.status⟩

/-! READ (42_io R140). -/

/-- Settles O39: the loop runs through all lines and rejects each. -/
theorem readWaitsForInput : Obligations.ReadWaitsForInput := fun _ a hbad => exec_read_blocks a hbad

/-- READ's loop stops at the first line that parses. -/
theorem scanInput_firstValid {bad : List Text} {line : Text} {w : Word} (rest : List Text) (hbad : AllMalformed bad)
    (hline : parseWord line = some w) : scanInput (bad ++ line :: rest) = ⟨bad, some w, rest⟩ := by
  induction bad with
  | nil => exact scanInput_valid rest hline
  | cons b bad ih =>
    obtain ⟨hb, hbad⟩ := List.forall_mem_cons.mp hbad
    rw [List.cons_append, scanInput_malformed _ hb, ih hbad]

/-- 42_io R140, 60_exceptions R187: the address check of READ comes after its loop. -/
theorem exec_read_raises {s : State} {a : Nat} {w : Word} (h : (scanInput s.input).word = some w)
    (ha : s.capacity ≤ a) :
    exec (.read a) s =
      .next (((s.consumeInput (scanInput s.input)).setWaiting false).raise (.addressOutOfRange a)) := by
  simp only [exec, execRead, h]
  exact congrArg Host.Outcome.next (State.storeResult_raises _ w ha)

/-- Settles O38: the store that ends READ completes, and it finds the lines consumed and `waiting` cleared. -/
theorem readStoresFirstValidLine : Obligations.ReadStoresFirstValidLine := by
  intro s a bad rest line w hin hbad hline ha hp
  have hscan : scanInput s.input = ⟨bad, some w, rest⟩ := by rw [hin, scanInput_firstValid rest hbad hline]
  have hexec := exec_read_completes (by rw [hscan]) ha hp
  rw [hscan] at hexec
  exact ⟨_, hexec, Memory.read_write_same _ a w, Marks.mem_mark.mpr (.inl rfl),
    State.putWord_sameMemoryExcept _ a w, rfl, rfl, rfl, rfl, rfl, rfl, rfl, jump_advanced rfl rfl hp⟩

/-- Settles O40: the store that ends READ is refused by its address check, after the lines are consumed. -/
theorem readOutOfRangeLosesInput : Obligations.ReadOutOfRangeLosesInput := by
  intro s a bad rest line w hin hbad hline ha
  have hscan : scanInput s.input = ⟨bad, some w, rest⟩ := by rw [hin, scanInput_firstValid rest hbad hline]
  rw [exec_read_raises (by rw [hscan]) ha, hscan]
  rfl

end Sys2Proof.Machine

/-! The instructions that read a cell into the accumulator, and STORE (43_load_store.md, 44_arithmetic.md): what LOAD and
STORE do when they complete, and what the five that write the accumulator leave unchanged. -/

namespace Sys2Proof.Machine

open Sys2Proof.Claims

/-! LOAD and STORE (43_load_store R150, R151). -/

theorem exec_load_completes (s : State) {a : Nat} (ha : a < s.capacity) (hp : s.pc + 1 < s.capacity) :
    exec (.load a) s = .next ((s.setAcc (s.mem.read a)).jump (s.pc + 1)) :=
  congrArg Host.Outcome.next (s.withOperand_accResult_completes id ha hp)

/-- Settles O22: an accumulator write and an accepted `SetPC`, and these touch nothing else. -/
theorem loadCopiesCell : Obligations.LoadCopiesCell := fun s _ ha hp =>
  ⟨_, exec_load_completes s ha hp, rfl, jump_advanced rfl rfl hp, ⟨fun _ => rfl, fun _ => .rfl⟩, ⟨rfl, rfl, rfl⟩,
    rfl, rfl, rfl⟩

/-- Settles O23: a memory write of the accumulator and an accepted `SetPC`. -/
theorem storeWritesCell : Obligations.StoreWritesCell := fun s a ha hp =>
  ⟨_, exec_store_completes s ha hp, Memory.read_write_same _ a _, Marks.mem_mark.mpr (.inl rfl), rfl,
    jump_advanced rfl rfl hp, s.putWord_sameMemoryExcept a _, ⟨rfl, rfl, rfl⟩, rfl, rfl, rfl⟩

/-! The frame of the five instructions that write the accumulator (44_arithmetic R160 to R163). -/

/-- The one shape of these five: read the cell, compute a Word or an error, and end by writing the accumulator. -/
theorem exec_accumulator_eq {a : Nat} {i : Instr} (s : State)
    (hi : i ∈ [Instr.load a, .add a, .subtract a, .multiply a, .divide a]) :
    ∃ r : Word → Except Err Word, exec i s = .next (s.withOperand a fun v => s.accResult (r v)) := by
  simp only [List.mem_cons, List.not_mem_nil, or_false] at hi
  rcases hi with rfl | rfl | rfl | rfl | rfl
  · exact ⟨.ok, rfl⟩
  · exact ⟨fun v => .ok (aluAdd s.acc v), rfl⟩
  · exact ⟨fun v => .ok (aluSub s.acc v), rfl⟩
  · exact ⟨fun v => .ok (aluMul s.acc v), rfl⟩
  · exact ⟨aluDiv s.acc, rfl⟩

/-- The last act comes after the accumulator write, or is the fault of computing the Word, which leaves `acc` as it was. -/
theorem accResult_endFrame (s : State) (r : Except Err Word) : ∃ w, EndFrame (s.setAcc w) (s.accResult r) := by
  cases r with
  | error e => exact ⟨s.acc, raise_endFrame s e⟩
  | ok w => exact ⟨w, advance_endFrame (s.setAcc w)⟩

theorem withOperand_accResult_endFrame (s : State) (a : Nat) (r : Word → Except Err Word) :
    ∃ w, EndFrame (s.setAcc w) (s.withOperand a fun v => s.accResult (r v)) := by
  rcases Nat.lt_or_ge a s.capacity with ha | ha
  · rw [s.withOperand_inRange _ ha]; exact accResult_endFrame s _
  · rw [s.withOperand_raises _ ha]; exact ⟨s.acc, raise_endFrame s _⟩

/-- Settles O48: whatever Word the accumulator gets, the last act is one from a state that differs in `acc` only. -/
theorem accumulatorInstructionsFrame : Obligations.AccumulatorInstructionsFrame := by
  intro s t a i hi h
  obtain ⟨r, hr⟩ := exec_accumulator_eq s hi
  obtain rfl := Host.Outcome.next.inj (hr.symm.trans h)
  obtain ⟨w, hend⟩ := withOperand_accResult_endFrame s a r
  exact ⟨hend.sameMemory, hend.streams, hend.halted, hend.status⟩

end Sys2Proof.Machine

/-! The four arithmetic instructions (44_arithmetic R160 to R163): what they leave in the accumulator when they complete,
and the fault of a divisor of value 0. -/

namespace Sys2Proof.Machine

open Sys2Proof.Claims

/-- 40_word_arithmetic R103: a result that fits keeps its value, and one that does not keeps its last six digits and its
sign. -/
theorem truncatesTo_trunc (r : Int) : TruncatesTo r (trunc r) := by
  refine ⟨fun hfits => ⟨wordVal_trunc_eq_iff.mpr hfits, fun hzero => ?_⟩, fun _ => ⟨trunc_mag r, trunc_sign r⟩⟩
  rw [hzero]; rfl

/-- 44_arithmetic R160 to R163: an accumulator write and an accepted advance change `acc`, `pc` and `halted` only. -/
theorem setAcc_jump_frame {s : State} (w : Word) (hp : s.pc + 1 < s.capacity) :
    let t := (s.setAcc w).jump (s.pc + 1)
    Advanced s t ∧ SameMemory s t ∧ SameStreams s t ∧ SameStatus s t :=
  ⟨jump_advanced rfl rfl hp, ⟨fun _ => rfl, fun _ => .rfl⟩, ⟨rfl, rfl, rfl⟩, rfl, rfl, rfl⟩

/-! ADD, SUBTRACT and MULTIPLY (44_arithmetic R160 to R162). -/

/-- Settles O25: ADD writes `Trunc` of the exact sum and advances. -/
theorem addWritesTruncatedSum : Obligations.AddWritesTruncatedSum := fun s _ ha hp =>
  ⟨_, exec_add_completes s ha hp, truncatesTo_trunc _, setAcc_jump_frame _ hp⟩

/-- Settles O26: SUBTRACT writes `Trunc` of the exact difference and advances. -/
theorem subtractWritesTruncatedDifference : Obligations.SubtractWritesTruncatedDifference := fun s _ ha hp =>
  ⟨_, exec_subtract_completes s ha hp, truncatesTo_trunc _, setAcc_jump_frame _ hp⟩

/-- Settles O27: MULTIPLY writes `Trunc` of the exact product and advances. -/
theorem multiplyWritesTruncatedProduct : Obligations.MultiplyWritesTruncatedProduct := fun s _ ha hp =>
  ⟨_, exec_multiply_completes s ha hp, truncatesTo_trunc _, setAcc_jump_frame _ hp⟩

/-! DIVIDE (44_arithmetic R163, 40_word_arithmetic R111). -/

theorem floorQuotient_neg_neg_iff {n d q : Int} : FloorQuotient (-n) (-d) q ↔ FloorQuotient n d q := by
  simp only [FloorQuotient, Int.neg_pos, Int.neg_neg_iff_pos, Int.mul_neg, Int.neg_le_neg_iff, Int.neg_lt_neg_iff]
  exact and_comm

theorem floorQuotient_fdiv_of_pos (n : Int) {d : Int} (h : 0 < d) : FloorQuotient n d (n.fdiv d) := by
  refine ⟨fun _ => ⟨?_, Int.lt_fdiv_add_one_mul_self n h⟩, fun hneg => absurd h (Int.lt_asymm hneg)⟩
  rw [Int.mul_comm]; exact Int.mul_fdiv_self_le h

/-- The floor of a quotient is that of the quotient with both signs turned, so a positive divisor is the one case. -/
theorem floorQuotient_fdiv (n : Int) {d : Int} (h : d ≠ 0) : FloorQuotient n d (n.fdiv d) := by
  rcases Int.lt_or_gt_of_ne h with hneg | hpos
  · rw [← floorQuotient_neg_neg_iff, ← Int.neg_fdiv_neg]
    exact floorQuotient_fdiv_of_pos (-n) (Int.neg_pos_of_neg hneg)
  · exact floorQuotient_fdiv_of_pos n hpos

/-- 60_exceptions R188: once the address is in range, the ALU's answer decides between completion and fault. -/
theorem exec_divide_inRange (s : State) {a : Nat} (ha : a < s.capacity) :
    exec (.divide a) s = .next (s.accResult (aluDiv s.acc (s.mem.read a))) :=
  congrArg Host.Outcome.next (s.withOperand_inRange _ ha)

theorem exec_divide_completes (s : State) {a : Nat} (ha : a < s.capacity) (hp : s.pc + 1 < s.capacity)
    (hd : wordVal (s.mem.read a) ≠ 0) :
    exec (.divide a) s =
      .next ((s.setAcc (trunc ((wordVal s.acc).fdiv (wordVal (s.mem.read a))))).jump (s.pc + 1)) := by
  rw [exec_divide_inRange s ha, aluDiv_of_ne_zero _ hd, s.accResult_inRange _ hp]

/-- Settles O28: the floor quotient fits in a Word, so `Trunc` keeps its value, and an exact zero is `+000000`. -/
theorem divideWritesFloorQuotient : Obligations.DivideWritesFloorQuotient := by
  intro s a ha hp hd
  obtain ⟨hkeeps, -⟩ := truncatesTo_trunc ((wordVal s.acc).fdiv (wordVal (s.mem.read a)))
  obtain ⟨hval, hzero⟩ := hkeeps (natAbs_fdiv_wordVal_le s.acc _)
  refine ⟨_, exec_divide_completes s ha hp hd, ?quotient, fun h => hzero (hval.symm.trans h), setAcc_jump_frame _ hp⟩
  case quotient =>
    rw [State.jump_acc, State.setAcc_acc, hval]
    exact floorQuotient_fdiv _ hd

/-- Settles O45: `Div` raises when the magnitude is 0, whichever the sign, and the fault leaves all else as it was. -/
theorem divideByZeroFaults : Obligations.DivideByZeroFaults := by
  intro s a ha hmag
  rw [exec_divide_inRange s ha, aluDiv_of_zero _ ((wordVal_eq_zero_iff _).mpr hmag), State.accResult_error]
  rfl

end Sys2Proof.Machine

/-! Control (45_control.md): where the three branches go, what HALT and NOOP do, and what all five leave unchanged. -/

namespace Sys2Proof.Machine

open Sys2Proof.Claims

/-! An accepted `SetPC` (41_sequencer R120) and the branch that makes it or falls through (45_control R170 to R172). -/

theorem jump_jumpedTo {s : State} {a : Nat} (ha : a < s.capacity) : JumpedTo a s (s.jump a) := by
  have hsentinel : a + 1 = s.capacity ↔ a = s.capacity - 1 := by omega
  refine ⟨rfl, ?_⟩
  rw [State.jump_halted_iff, hsentinel]

/-- An accepted `SetPC` changes `pc` and `halted` only. -/
theorem jump_frame (s : State) (a : Nat) :
    (s.jump a).acc = s.acc ∧ SameMemory s (s.jump a) ∧ SameStreams s (s.jump a) ∧ SameStatus s (s.jump a) :=
  ⟨rfl, ⟨fun _ => rfl, fun _ => .rfl⟩, ⟨rfl, rfl, rfl⟩, rfl, rfl, rfl⟩

/-- A branch that is taken under a condition, with the `pc` it sets in range: the target if taken, else the next address. -/
theorem branchIf_completes {s : State} {a : Nat} {taken : Prop} [Decidable taken] (htaken : taken → a < s.capacity)
    (hfalls : ¬ taken → s.pc + 1 < s.capacity) :
    let t := if taken then s.branchTo a else s.advance
    (taken → JumpedTo a s t) ∧ (¬ taken → Advanced s t) ∧ t.acc = s.acc ∧ SameMemory s t ∧ SameStreams s t ∧
      SameStatus s t := by
  by_cases h : taken
  · rw [if_pos h, s.branchTo_inRange (htaken h)]
    exact ⟨fun _ => jump_jumpedTo (htaken h), fun hn => absurd h hn, jump_frame s a⟩
  · rw [if_neg h, s.advance_inRange (hfalls h)]
    exact ⟨fun ht => absurd ht h, fun _ => jump_advanced rfl rfl (hfalls h), jump_frame s _⟩

theorem exec_branch (s : State) (a : Nat) : exec (.branch a) s = .next (s.branchTo a) := rfl

theorem exec_branchneg (s : State) (a : Nat) :
    exec (.branchneg a) s = .next (if wordVal s.acc < 0 then s.branchTo a else s.advance) := by
  simp only [exec, execBranchneg, isNeg_iff]

/-- The value of a Word is 0 exactly when its magnitude is, whichever the sign. -/
theorem exec_branchzero (s : State) (a : Nat) :
    exec (.branchzero a) s = .next (if s.acc.mag.val = 0 then s.branchTo a else s.advance) := by
  simp only [exec, execBranchzero, isZero_iff, wordVal_eq_zero_iff]

theorem exec_noop (s : State) (a : Nat) : exec (.noop a) s = .next s.advance := rfl

/-- Settles O33: a taken branch in range is an accepted `SetPC` of its target. -/
theorem branchGoesToTarget : Obligations.BranchGoesToTarget := by
  intro s a ha
  refine ⟨s.jump a, ?_, jump_jumpedTo ha, jump_frame s a⟩
  rw [exec_branch, s.branchTo_inRange ha]

/-- Settles O34: the condition is that the value is below 0. -/
theorem branchnegTestsSign : Obligations.BranchnegTestsSign := by
  intro s a htaken hfalls
  rw [← Int.not_lt] at hfalls ⊢
  exact ⟨_, exec_branchneg s a, branchIf_completes htaken hfalls⟩

/-- Settles O35: the condition is that the magnitude is 0. -/
theorem branchzeroTestsZero : Obligations.BranchzeroTestsZero := fun s a htaken hfalls =>
  ⟨_, exec_branchzero s a, branchIf_completes htaken hfalls⟩

/-- Settles O36: HALT sets `halted`, and the advance that follows cannot clear it. -/
theorem haltSetsHalted : Obligations.HaltSetsHalted := fun s a hp =>
  ⟨_, exec_halt_completes s a hp, (State.jump_halted_iff _ _).mpr (.inl rfl), rfl, jump_frame s.setHalted (s.pc + 1)⟩

/-- Settles O37: the advance of NOOP is an accepted `SetPC(pc + 1)`. -/
theorem noopOnlyAdvances : Obligations.NoopOnlyAdvances := by
  intro s a hp
  refine ⟨s.jump (s.pc + 1), ?_, jump_advanced rfl rfl hp, jump_frame s _⟩
  rw [exec_noop, s.advance_inRange hp]

/-- Settles O44: each of the three, when taken, is the one `SetPC` of its target, which raises out of range. -/
theorem branchTargetOutOfRangeFaults : Obligations.BranchTargetOutOfRangeFaults := by
  intro s a i ha hi
  have htaken : exec i s = .next (s.branchTo a) := by
    rcases hi with rfl | ⟨rfl, hneg⟩ | ⟨rfl, hzero⟩
    · exact exec_branch s a
    · rw [exec_branchneg, if_pos hneg]
    · rw [exec_branchzero, if_pos ((wordVal_eq_zero_iff _).mp hzero)]
  rw [htaken, s.branchTo_raises ha]
  rfl

/-! The frame of the five (45_control R170 to R174). -/

theorem branchTo_endFrame (s : State) (a : Nat) : EndFrame s (s.branchTo a) := by
  rcases Nat.lt_or_ge a s.capacity with ha | ha
  · rw [s.branchTo_inRange ha]; exact jump_endFrame s a
  · rw [s.branchTo_raises ha]; exact raise_endFrame s _

theorem branchIf_endFrame (s : State) (a : Nat) (taken : Prop) [Decidable taken] :
    EndFrame s (if taken then s.branchTo a else s.advance) := by
  split
  · exact branchTo_endFrame s a
  · exact advance_endFrame s

/-- The last act is all that these do, but for HALT, which sets `halted` before it. -/
theorem exec_control_endFrame {s t : State} {a : Nat} {i : Instr}
    (hi : i ∈ [Instr.branch a, .branchneg a, .branchzero a, .halt a, .noop a]) (h : exec i s = .next t) :
    EndFrame s t ∨ (i = .halt a ∧ EndFrame s.setHalted t) := by
  simp only [List.mem_cons, List.not_mem_nil, or_false] at hi
  rcases hi with rfl | rfl | rfl | rfl | rfl
  · obtain rfl := Host.Outcome.next.inj ((exec_branch s a).symm.trans h)
    exact .inl (branchTo_endFrame s a)
  · obtain rfl := Host.Outcome.next.inj ((exec_branchneg s a).symm.trans h)
    exact .inl (branchIf_endFrame s a _)
  · obtain rfl := Host.Outcome.next.inj ((exec_branchzero s a).symm.trans h)
    exact .inl (branchIf_endFrame s a _)
  · obtain rfl : s.setHalted.advance = t := Host.Outcome.next.inj h
    exact .inr ⟨rfl, advance_endFrame _⟩
  · obtain rfl := Host.Outcome.next.inj ((exec_noop s a).symm.trans h)
    exact .inl (advance_endFrame s)

/-- Settles O49: the last act changes `pc` and `halted`, or the latch and `waiting`, and HALT's own write is to `halted`. -/
theorem controlInstructionsFrame : Obligations.ControlInstructionsFrame := by
  intro s t a i hi h
  rcases exec_control_endFrame hi h with hend | ⟨rfl, hend⟩
  · exact ⟨hend.acc, hend.sameMemory, hend.streams, fun _ => hend.halted, hend.status⟩
  · exact ⟨hend.acc, hend.sameMemory, hend.streams, fun hne => absurd rfl hne, hend.status⟩

end Sys2Proof.Machine

/-! The run of an empty memory (45_control R174): each step is a NOOP, so the run counts up to the sentinel. -/

namespace Sys2Proof.Machine

/-- 45_control R174: a cell never written holds a NOOP. -/
theorem decode_zero : decode Word.zero = .noop 0 := rfl

theorem State.jump_of_ne_sentinel {s : State} {a : Nat} (h : a + 1 ≠ s.capacity) : s.jump a = { s with pc := a } := by
  simp [State.jump, h]

/-- 41_sequencer R128: a turn of the loop, with the trace off, whose step does not block. -/
theorem runLoop_of_step {s t : State} (hf : s.fault = none) (hh : s.halted = false) (h : step s = .next t)
    (hw : t.waiting = false) (k : Nat) : runLoop none (k + 1) s = runLoop none k t := by
  simp [runLoop, hf, hh, h, hw, traceView]

/-- 41_sequencer R129 (d), R132: a run whose budget is used up, short of a halt or a fault. -/
theorem runLoop_paused {s : State} (hf : s.fault = none) (hh : s.halted = false) (trace : Option Int) :
    runLoop trace 0 s = ⟨.paused, s, []⟩ := by
  simp [runLoop, hf, hh]

/-- The machine with an empty memory, brought to `k` by `SetPC`, is not halted in front of the sentinel. -/
theorem powerOn_jump_not_halted {n k : Nat} (h : k + 1 < n) : ((State.powerOn n).jump k).halted = false := by
  simp [h.ne]

/-- A step in front of the sentinel fetches `+000000` and only advances. -/
theorem step_powerOn_jump {n k : Nat} (h : k + 1 < n) :
    step ((State.powerOn n).jump k) = .next ((State.powerOn n).jump (k + 1)) := by
  have hadvance : ((State.powerOn n).jump k).advance = ((State.powerOn n).jump k).jump (k + 1) :=
    State.advance_inRange _ h
  have hjump : ((State.powerOn n).jump k).jump (k + 1) = (State.powerOn n).jump (k + 1) := by
    rw [State.jump_of_ne_sentinel (a := k) h.ne]; rfl
  calc step ((State.powerOn n).jump k)
      = exec (decode Word.zero) ((State.powerOn n).jump k) :=
        step_of_running rfl (powerOn_jump_not_halted h) (Nat.lt_of_succ_lt h)
    _ = .next ((State.powerOn n).jump (k + 1)) := by rw [decode_zero, exec_noop, hadvance, hjump]

/-- The loop takes one step for each of its budget, up to the sentinel. -/
theorem runLoop_powerOn_jump {n k j : Nat} (h : j + k < n) :
    runLoop none k ((State.powerOn n).jump j) = runLoop none 0 ((State.powerOn n).jump (j + k)) := by
  induction k generalizing j with
  | zero => rfl
  | succ k ih =>
    have hj : j + 1 < n := by omega
    rw [runLoop_of_step rfl (powerOn_jump_not_halted hj) (step_powerOn_jump hj) rfl, ih (by omega),
      Nat.add_right_comm, Nat.add_assoc]

/-- 41_sequencer R128 (decision D20): the default start is the address 0. -/
theorem hostRun_powerOn {n k : Nat} (h : k < n) :
    hostRun (State.powerOn n) (runStart none) none k = runLoop none 0 ((State.powerOn n).jump k) := by
  have hstart : hostRun (State.powerOn n) (runStart none) none k = runLoop none k ((State.powerOn n).jump 0) :=
    hostRun_inRange (s := State.powerOn n) (a := 0) rfl (Nat.zero_lt_of_lt h) none k
  rw [hstart, runLoop_powerOn_jump (by omega), Nat.zero_add]

/-- Settles O17: the run has counted up to its budget; there it has halted at the sentinel, or it is paused before it. -/
theorem emptyMemoryRunsToSentinel : Obligations.EmptyMemoryRunsToSentinel := by
  rintro n ⟨hcap, -⟩
  refine ⟨?sentinel, fun k hk => ?before⟩
  case sentinel =>
    have hend : n - 1 + 1 = (State.powerOn n).capacity := Nat.sub_add_cancel (Nat.one_le_of_lt hcap)
    rw [hostRun_powerOn (by omega), runLoop_of_halted ((State.jump_halted_iff _ _).mpr (.inr hend)),
      State.jump_of_halts (.inr hend)]
  case before =>
    have hrunning : k + 1 < n := by omega
    rw [hostRun_powerOn (by omega), runLoop_paused rfl (powerOn_jump_not_halted hrunning),
      State.jump_of_ne_sentinel (s := State.powerOn n) hrunning.ne]

end Sys2Proof.Machine

/-! Faults and `Reset()` (60_exceptions.md, 70_reset_and_hazards R210): everything an instruction can raise and the state in
which it raises it, said once, and the one way out of a fault. -/

namespace Sys2Proof.Machine

open Sys2Proof.Claims

/-! The errors of each instruction (60_exceptions R182 to R184). -/

/-- 30_encoding R73: HALT and NOOP ignore their operand. -/
def usesOperand : Instr → Bool
  | .halt _ => false
  | .noop _ => false
  | _ => true

theorem usesOperand_iff {i : Instr} : usesOperand i = true ↔ (∀ a, i ≠ .halt a) ∧ ∀ a, i ≠ .noop a := by
  cases i <;> simp [usesOperand]

/-- 60_exceptions R182, R184: the errors `i` raises on `s`, each with its cause. -/
inductive Raises (i : Instr) (s : State) : Err → Prop where
  | operand : usesOperand i = true → s.capacity ≤ i.operand → Raises i s (.addressOutOfRange i.operand)
  | divisor (a : Nat) : i = .divide a → wordVal (s.mem.read a) = 0 → Raises i s .divisionByZero

/-- 60_exceptions R187: the state in which `i` raises its errors: READ has run its loop by then (decision D12), and no other
instruction has done anything. -/
def State.beforeFault (s : State) : Instr → State
  | .read _ => (s.consumeInput (scanInput s.input)).setWaiting false
  | _ => s

theorem State.beforeFault_cases (s : State) (i : Instr) :
    ((∀ a, i ≠ .read a) ∧ s.beforeFault i = s) ∨
    ((∃ a, i = .read a) ∧ s.beforeFault i = (s.consumeInput (scanInput s.input)).setWaiting false) := by
  cases i with
  | read a => exact .inr ⟨⟨a, rfl⟩, rfl⟩
  | _ => exact .inl ⟨by simp, rfl⟩

@[simp] theorem State.beforeFault_pc (s : State) (i : Instr) : (s.beforeFault i).pc = s.pc := by
  rcases s.beforeFault_cases i with ⟨-, h⟩ | ⟨-, h⟩
  · rw [h]
  · rw [h]; rfl

/-! Each instruction leaves the latch, or raises one of its errors in the state `beforeFault`. -/

/-- The two outcomes of an instruction, as far as the latch is concerned. -/
inductive LeavesLatchOrRaises (i : Instr) (s : State) : Prop where
  | leaves {t : State} : exec i s = .next t → t.fault = s.fault → LeavesLatchOrRaises i s
  | raises {e : Err} : Raises i s e → exec i s = .next ((s.beforeFault i).raise e) → LeavesLatchOrRaises i s

/-- The address check decides first (60_exceptions R188), and out of range it raises. -/
theorem leavesLatchOrRaises_of_checked {i : Instr} {s : State} (hi : usesOperand i = true)
    (hout : s.capacity ≤ i.operand → exec i s = .next ((s.beforeFault i).raise (.addressOutOfRange i.operand)))
    (hin : i.operand < s.capacity → LeavesLatchOrRaises i s) : LeavesLatchOrRaises i s := by
  rcases Nat.lt_or_ge i.operand s.capacity with ha | ha
  · exact hin ha
  · exact .raises (.operand hi ha) (hout ha)

/-- The seven instructions but READ that reach memory, given what they do in range. -/
theorem leavesLatchOrRaises_of_memory {i : Instr} {s : State} {a : Nat}
    (hi : i ∈ [Instr.write a, .load a, .store a, .add a, .subtract a, .multiply a, .divide a])
    (hin : a < s.capacity → LeavesLatchOrRaises i s) : LeavesLatchOrRaises i s := by
  have hout := memoryOperandOutOfRangeFaults s a i hi
  simp only [List.mem_cons, List.not_mem_nil, or_false] at hi
  rcases hi with rfl | rfl | rfl | rfl | rfl | rfl | rfl <;> exact leavesLatchOrRaises_of_checked rfl hout hin

/-- 45_control R170: a taken branch is the `SetPC` of its target, which checks it. -/
theorem branchTo_leavesLatchOrRaises {i : Instr} {s : State} (hi : usesOperand i = true) (hbefore : s.beforeFault i = s)
    (h : exec i s = .next (s.branchTo i.operand)) : LeavesLatchOrRaises i s := by
  refine leavesLatchOrRaises_of_checked hi (fun ha => ?_) (fun ha => .leaves h ?_)
  · rw [h, s.branchTo_raises ha, hbefore]
  · rw [s.branchTo_inRange ha, State.jump_fault]

theorem exec_read_leavesLatchOrRaises {s : State} (a : Nat) (hp : s.pc + 1 < s.capacity) :
    LeavesLatchOrRaises (.read a) s := by
  cases hword : (scanInput s.input).word with
  | none =>
    have hwaits : exec (.read a) s = .next (s.consumeInput (scanInput s.input)) := by simp only [exec, execRead, hword]
    exact .leaves hwaits rfl
  | some w =>
    exact leavesLatchOrRaises_of_checked rfl (exec_read_raises hword) fun ha =>
      .leaves (exec_read_completes hword ha hp) rfl

theorem exec_divide_leavesLatchOrRaises {s : State} {a : Nat} (ha : a < s.capacity) (hp : s.pc + 1 < s.capacity) :
    LeavesLatchOrRaises (.divide a) s := by
  by_cases hd : wordVal (s.mem.read a) = 0
  · exact .raises (.divisor a rfl hd) (divideByZeroFaults s a ha ((wordVal_eq_zero_iff _).mp hd))
  · exact .leaves (exec_divide_completes s ha hp hd) rfl

/-- A branch that is taken under a condition checks its target only if it is taken (45_control R171, R172). -/
theorem branchIf_leavesLatchOrRaises {i : Instr} {s : State} {taken : Prop} [Decidable taken] (hi : usesOperand i = true)
    (hbefore : s.beforeFault i = s) (hp : s.pc + 1 < s.capacity)
    (h : exec i s = .next (if taken then s.branchTo i.operand else s.advance)) : LeavesLatchOrRaises i s := by
  by_cases htaken : taken
  · rw [if_pos htaken] at h
    exact branchTo_leavesLatchOrRaises hi hbefore h
  · rw [if_neg htaken, s.advance_inRange hp] at h
    exact .leaves h rfl

/-- 60_exceptions R182 to R187: everything an instruction can do to the latch in front of the sentinel. -/
theorem exec_leavesLatchOrRaises (i : Instr) {s : State} (hp : s.pc + 1 < s.capacity) : LeavesLatchOrRaises i s := by
  cases i with
  | read a => exact exec_read_leavesLatchOrRaises a hp
  | write a => exact leavesLatchOrRaises_of_memory (by simp) fun ha => .leaves (exec_write_completes s ha hp) rfl
  | load a => exact leavesLatchOrRaises_of_memory (by simp) fun ha => .leaves (exec_load_completes s ha hp) rfl
  | store a => exact leavesLatchOrRaises_of_memory (by simp) fun ha => .leaves (exec_store_completes s ha hp) rfl
  | add a => exact leavesLatchOrRaises_of_memory (by simp) fun ha => .leaves (exec_add_completes s ha hp) rfl
  | subtract a => exact leavesLatchOrRaises_of_memory (by simp) fun ha => .leaves (exec_subtract_completes s ha hp) rfl
  | multiply a => exact leavesLatchOrRaises_of_memory (by simp) fun ha => .leaves (exec_multiply_completes s ha hp) rfl
  | divide a => exact leavesLatchOrRaises_of_memory (by simp) fun ha => exec_divide_leavesLatchOrRaises ha hp
  | branch a => exact branchTo_leavesLatchOrRaises rfl rfl (exec_branch s a)
  | branchneg a => exact branchIf_leavesLatchOrRaises rfl rfl hp (exec_branchneg s a)
  | branchzero a => exact branchIf_leavesLatchOrRaises rfl rfl hp (exec_branchzero s a)
  | halt a => exact .leaves (exec_halt_completes s a hp) rfl
  | noop a => exact .leaves (exec_noop s a) (by rw [s.advance_inRange hp, State.jump_fault])

/-- The state that an instruction which faulted has left. -/
theorem exec_faulted {i : Instr} {s t : State} (hf : s.fault = none) (hp : s.pc + 1 < s.capacity)
    (h : exec i s = .next t) (ht : t.fault ≠ none) : ∃ e, Raises i s e ∧ t = (s.beforeFault i).raise e := by
  cases exec_leavesLatchOrRaises i hp with
  | leaves hu hfault =>
    obtain rfl := Host.Outcome.next.inj (hu.symm.trans h)
    exact absurd (hfault.trans hf) ht
  | raises he hu => exact ⟨_, he, Host.Outcome.next.inj (h.symm.trans hu)⟩

/-- Settles O46: the fault entry changes the latch and `waiting`, and before it only READ has done anything: its loop. -/
theorem faultsArePrecise : Obligations.FaultsArePrecise := by
  intro i s t hf hp h ht
  obtain ⟨e, -, rfl⟩ := exec_faulted hf hp h ht
  rcases s.beforeFault_cases i with ⟨-, hbefore⟩ | ⟨⟨a, hread⟩, hbefore⟩ <;> rw [hbefore]
  · exact ⟨rfl, rfl, ⟨fun _ => rfl, fun _ => .rfl⟩, rfl, rfl, rfl, fun _ => ⟨rfl, rfl⟩⟩
  · exact ⟨rfl, rfl, ⟨fun _ => rfl, fun _ => .rfl⟩, rfl, rfl, rfl, fun hnot => absurd hread (hnot a)⟩

/-- Settles O47: the latch keeps the kind and the info of the error raised, and there are two causes of one. -/
theorem instructionsRaiseTwoKinds : Obligations.InstructionsRaiseTwoKinds := by
  intro i s t f hf hp h ht
  obtain ⟨e, he, rfl⟩ := exec_faulted hf hp h (by simp [ht])
  obtain rfl := Option.some.inj ht
  refine ⟨s.beforeFault_pc i, ?_⟩
  cases he with
  | operand hi ha => exact .inl ⟨rfl, rfl, ha, usesOperand_iff.mp hi⟩
  | divisor a hi hd => exact .inr ⟨rfl, rfl, a, hi, hd⟩

/-! The way out of a fault (60_exceptions R189, 70_reset_and_hazards R210). -/

/-- Settles O60: after `Reset()` the guards of a step pass, and its fetch is at address 0 of the same memory. -/
theorem resetRunsAgainFromZero : Obligations.ResetRunsAgainFromZero := by
  intro s hinv
  obtain ⟨-, hpc, -⟩ := State.inv_iff.mp hinv
  exact ⟨hinv.cpuReset, rfl, rfl, ⟨rfl, rfl, rfl⟩, rfl, rfl, rfl, rfl, rfl,
    step_of_running rfl rfl (Nat.zero_lt_of_lt hpc)⟩

end Sys2Proof.Machine

/-! The loader (70_reset_and_hazards R213): lines that all parse are the Words of a `loadFrom` at the append cursor, and on
an empty store that is `Clear` of the same Words. -/

namespace Sys2Proof.Machine

/-- 20_memory R52: a write at the append cursor moves it one cell on. -/
theorem hostCursor_putWord_cursor (s : State) (w : Word) :
    hostCursor (s.putWord (hostCursor s) w) = hostCursor s + 1 :=
  (Marks.cursor_mark _ _).trans (max_eq_left (Nat.le_succ _))

theorem loadLines_cons {s : State} {line : Text} {w : Word} (rest : List Text) (hline : parseWord line = some w)
    (hroom : hostCursor s < s.capacity) :
    loadLines s (line :: rest) = loadLines (s.putWord (hostCursor s) w) rest := by
  simp only [loadLines, wordOfText_of_some hline, hostWriteNext_inRange w hroom]

/-- Lines that all parse and fit above the append cursor are all loaded, from the cursor upward. -/
theorem loadLines_eq_loadFrom {s : State} {lines : List Text} {ws : List Word}
    (hparse : lines.map parseWord = ws.map some) (hroom : hostCursor s + lines.length ≤ s.capacity) :
    loadLines s lines = (s.loadFrom (hostCursor s) ws, none) := by
  induction lines generalizing s ws with
  | nil =>
    obtain rfl : ws = [] := List.map_eq_nil_iff.mp hparse.symm
    rfl
  | cons line rest ih =>
    obtain ⟨w, ws, rfl, hline, hrest⟩ := List.map_eq_cons_iff.mp hparse.symm
    rw [List.length_cons] at hroom
    have hcursor : hostCursor (s.putWord (hostCursor s) w) = hostCursor s + 1 := hostCursor_putWord_cursor s w
    have hload := ih hrest.symm (s := s.putWord (hostCursor s) w) (by rw [hcursor, State.putWord_capacity]; omega)
    rw [loadLines_cons rest hline.symm (by omega), hload, hcursor, State.loadFrom]

/-- Settles O59: on an empty store the loader does what `Clear` does with the Words of the lines. -/
theorem loaderFillsFromZero : Obligations.LoaderFillsFromZero := by
  intro s lines ws hmem hwritten hfits hparse
  have hlen : lines.length = ws.length := by simpa using congrArg List.length hparse
  have hcursor : hostCursor s = 0 := hostCursor_of_written_nil hwritten
  have hempty : s.emptyStore = s := by rw [State.emptyStore, ← hmem, ← hwritten]
  have hload : loadLines s lines = (s.loadFrom 0 ws, none) :=
    hcursor ▸ loadLines_eq_loadFrom hparse (by omega)
  obtain ⟨t, hclear, hcells, -, hend, -, hrest⟩ := (clearReloadsStore s ws).2 (hlen ▸ hfits)
  obtain ⟨-, rfl⟩ := hostClear_ok hclear
  rw [hempty] at hcells hend hrest
  exact ⟨_, hload, hcells, hend.trans hlen.symm, hrest⟩

end Sys2Proof.Machine
